-- ==== Sys2Proof/Word.lean ====
section
/-! DEFINITION. The word types of ARPCODEC: the widths of 00_scope.md R6 and 10_state.md section 1. -/

namespace Sys2Proof

/-- A byte of the wire buffer or of the wire record (R8, R40). -/
abbrev Byte := BitVec 8

/-- The content of a scalar register X (R20). -/
abbrev Scalar := BitVec 32

/-- A NetworkAddress: bits 31:24 are the first octet (R21, R22). -/
abbrev NetAddr := BitVec 32

/-- A HardwareAddress: bits 47:40 are byte 0 (R23, R24). -/
abbrev HwAddr := BitVec 48

/-- A command word `W[31:0]`, a value on the command port (R55). -/
abbrev CmdWord := BitVec 32

end Sys2Proof
end

