-- ==== Sys2Proof/Syntax.lean ====
section
/-! DEFINITION. The 54 commands of ARPCODEC, one constructor per row of opcode_table.json (30_encoding.md R61, R62). -/

namespace Sys2Proof

/-- Index of a scalar register, `x0` to `x7` (R20, R59). -/
abbrev XReg := Fin 8

/-- Index of a network-address register, `n0` to `n7` (R21, R59). -/
abbrev NReg := Fin 8

/-- Index of a hardware-address register, `h0` to `h3` (R23, R59). -/
abbrev HReg := Fin 4

/-- A command with its operands, in the order of R62's assembly column. `off` and `cnt` are the raw fields of
format M (R58); their bounds are `Instr.wf`. -/
inductive Instr where
  -- support (43_support.md)
  | xli (d : XReg) (imm : BitVec 16)
  | xlih (d : XReg) (imm : BitVec 16)
  | xmov (d a : XReg)
  | ldb (r : XReg) (off : BitVec 5)
  | stb (r : XReg) (off : BitVec 5)
  -- NetworkAddress: move, convert, bitwise (40_network_address.md)
  | nmov (d a : NReg)
  | nfromx (d : NReg) (a : XReg)
  | ntox (d : XReg) (a : NReg)
  | nld (r : NReg) (off : BitVec 5)
  | nst (r : NReg) (off : BitVec 5)
  | nnot (d a : NReg)
  | nand (d a b : NReg)
  | nor (d a b : NReg)
  | nxor (d a b : NReg)
  -- NetworkAddress: arithmetic, compare, mask
  | nadd (d a : NReg) (b : XReg)
  | nsub (d a : NReg) (b : XReg)
  | ninc (d : NReg)
  | ndec (d : NReg)
  | nincp (d a : NReg)
  | ndecp (d a : NReg)
  | neq (d : XReg) (a b : NReg)
  | nlt (d : XReg) (a b : NReg)
  | nismask (d : XReg) (a : NReg)
  | nnet (d a b : NReg)
  | nbcast (d a b : NReg)
  -- HardwareAddress (41_hardware_address.md)
  | hmov (d a : HReg)
  | hld (r : HReg) (off : BitVec 5)
  | hldl (r : HReg) (off : BitVec 5) (cnt : BitVec 4)
  | hst (r : HReg) (off : BitVec 5)
  | heq (d : XReg) (a b : HReg)
  | hne (d : XReg) (a b : HReg)
  | hisnull (d : XReg) (a : HReg)
  | hsetbc (d : HReg)
  -- frame control (42_arp_frame.md)
  | finit
  | fenc
  | fdec
  -- frame setters
  | fshtype (a : XReg)
  | fsptype (a : XReg)
  | fshlen (a : XReg)
  | fsplen (a : XReg)
  | fsoper (a : XReg)
  | fssha (a : HReg)
  | fsspa (a : NReg)
  | fstha (a : HReg)
  | fstpa (a : NReg)
  -- frame getters
  | fghtype (d : XReg)
  | fgptype (d : XReg)
  | fghlen (d : XReg)
  | fgplen (d : XReg)
  | fgoper (d : XReg)
  | fgsha (d : HReg)
  | fgspa (d : NReg)
  | fgtha (d : HReg)
  | fgtpa (d : NReg)
deriving DecidableEq, Repr

end Sys2Proof
end

