-- ==== Sys2Proof/WellFormed.lean ====
section
/-! DEFINITION. Well-formedness of a command term: the bounds of 30_encoding.md R58 on `off` and `cnt`, which keep
every access inside the wire buffer (20_memory.md R45). Register indices are bounded by their types (R59). -/

namespace Sys2Proof

/-- The condition of R58's second table; a command without an offset has none. -/
def Instr.wf : Instr → Bool
  | .xli _ _ => true
  | .xlih _ _ => true
  | .xmov _ _ => true
  | .ldb _ off => off.toNat ≤ 27
  | .stb _ off => off.toNat ≤ 27
  | .nmov _ _ => true
  | .nfromx _ _ => true
  | .ntox _ _ => true
  | .nld _ off => off.toNat ≤ 24
  | .nst _ off => off.toNat ≤ 24
  | .nnot _ _ => true
  | .nand _ _ _ => true
  | .nor _ _ _ => true
  | .nxor _ _ _ => true
  | .nadd _ _ _ => true
  | .nsub _ _ _ => true
  | .ninc _ => true
  | .ndec _ => true
  | .nincp _ _ => true
  | .ndecp _ _ => true
  | .neq _ _ _ => true
  | .nlt _ _ _ => true
  | .nismask _ _ => true
  | .nnet _ _ _ => true
  | .nbcast _ _ _ => true
  | .hmov _ _ => true
  | .hld _ off => off.toNat ≤ 22
  | .hldl _ off cnt => off.toNat + cnt.toNat ≤ 28
  | .hst _ off => off.toNat ≤ 22
  | .heq _ _ _ => true
  | .hne _ _ _ => true
  | .hisnull _ _ => true
  | .hsetbc _ => true
  | .finit => true
  | .fenc => true
  | .fdec => true
  | .fshtype _ => true
  | .fsptype _ => true
  | .fshlen _ => true
  | .fsplen _ => true
  | .fsoper _ => true
  | .fssha _ => true
  | .fsspa _ => true
  | .fstha _ => true
  | .fstpa _ => true
  | .fghtype _ => true
  | .fgptype _ => true
  | .fghlen _ => true
  | .fgplen _ => true
  | .fgoper _ => true
  | .fgsha _ => true
  | .fgspa _ => true
  | .fgtha _ => true
  | .fgtpa _ => true

end Sys2Proof
end

