-- ==== Sys2Proof/Decode.lean ====
section
/-! DEFINITION. The decoder of 30_encoding.md R63 (total on every 32-bit word, a word that is no command rejected by
the case of R66 it falls under) and the encoder, from the formats R, I and M of R56 to R58 and the slots of R62; then
the match and mask table of R62 as data. -/

namespace Sys2Proof

/-- Why a word is no command: cases (a) to (d) of R66. The name has no effect on the block: every one of them is
`ILLEGAL_CMD` (log entry 10). -/
inductive Illegal where
  /-- R66 (a): the `cmd` value is reserved. -/
  | reservedCmd
  /-- R66 (b): a bit of a field that must be zero is set. -/
  | mustBeZero
  /-- R66 (c): a register index outside its file. -/
  | registerIndex
  /-- R66 (d): an offset, or offset plus count, outside the bound of R58. -/
  | offsetBound
deriving DecidableEq, Repr

/-! ### Fields of a word (R55 to R58) -/

/-- `cmd = W[31:24]`, in every format. -/
def cmdField (w : CmdWord) : BitVec 8 := w.extractLsb' 24 8

/-- `rd = W[23:20]`; in format M the same nibble is `r`. -/
def rdField (w : CmdWord) : BitVec 4 := w.extractLsb' 20 4

/-- `ra = W[19:16]`; in format I this nibble must be zero. -/
def raField (w : CmdWord) : BitVec 4 := w.extractLsb' 16 4

/-- `rb = W[15:12]`. -/
def rbField (w : CmdWord) : BitVec 4 := w.extractLsb' 12 4

/-- `W[11:0]`, zero in format R. -/
def lowField (w : CmdWord) : BitVec 12 := w.extractLsb' 0 12

/-- `imm16 = W[15:0]` of format I. -/
def immField (w : CmdWord) : BitVec 16 := w.extractLsb' 0 16

/-- `W[19:12]`, zero in format M. -/
def midField (w : CmdWord) : BitVec 8 := w.extractLsb' 12 8

/-- `cnt = W[11:8]` of format M. -/
def cntField (w : CmdWord) : BitVec 4 := w.extractLsb' 8 4

/-- `W[7:5]`, zero in format M. -/
def gapField (w : CmdWord) : BitVec 3 := w.extractLsb' 5 3

/-- `off = W[4:0]` of format M. -/
def offField (w : CmdWord) : BitVec 5 := w.extractLsb' 0 5

/-! ### Slots (R59, R62) -/

/-- An index into file X: 0 to 7. -/
def xSlot (b : BitVec 4) : Except Illegal XReg :=
  if h : b.toNat < 8 then .ok ⟨b.toNat, h⟩ else .error .registerIndex

/-- An index into file N: 0 to 7. -/
def nSlot (b : BitVec 4) : Except Illegal NReg :=
  if h : b.toNat < 8 then .ok ⟨b.toNat, h⟩ else .error .registerIndex

/-- An index into file H: 0 to 3. -/
def hSlot (b : BitVec 4) : Except Illegal HReg :=
  if h : b.toNat < 4 then .ok ⟨b.toNat, h⟩ else .error .registerIndex

/-- A field that must be zero: an unused slot, or the zero bits of a format. -/
def zeroField {k : Nat} (b : BitVec k) : Except Illegal Unit :=
  if b = 0 then .ok () else .error .mustBeZero

/-- The bound of R58. -/
def withinBound (c : Bool) : Except Illegal Unit :=
  if c then .ok () else .error .offsetBound

/-! ### Formats -/

/-- Format R (R56): the three slots, and bits 11:0 zero. -/
def formatR {α β γ : Type} (w : CmdWord) (sd : BitVec 4 → Except Illegal α) (sa : BitVec 4 → Except Illegal β)
    (sb : BitVec 4 → Except Illegal γ) (mk : α → β → γ → Instr) : Except Illegal Instr := do
  let d ← sd (rdField w)
  let a ← sa (raField w)
  let b ← sb (rbField w)
  let _ ← zeroField (lowField w)
  return mk d a b

/-- Format I (R57): a register, bits 19:16 zero, `imm16`. -/
def formatI (w : CmdWord) (mk : XReg → BitVec 16 → Instr) : Except Illegal Instr := do
  let d ← xSlot (rdField w)
  let _ ← zeroField (raField w)
  return mk d (immField w)

/-- Format M (R58) of a command other than `HLDL`: `cnt` must be zero and `off` at most `max`. -/
def formatM {α : Type} (w : CmdWord) (sr : BitVec 4 → Except Illegal α) (max : Nat)
    (mk : α → BitVec 5 → Instr) : Except Illegal Instr := do
  let r ← sr (rdField w)
  let _ ← zeroField (midField w)
  let _ ← zeroField (cntField w)
  let _ ← zeroField (gapField w)
  let _ ← withinBound ((offField w).toNat ≤ max)
  return mk r (offField w)

/-- Format M (R58) of `HLDL`: `off + cnt` at most 28. -/
def formatML (w : CmdWord) (mk : HReg → BitVec 5 → BitVec 4 → Instr) : Except Illegal Instr := do
  let r ← hSlot (rdField w)
  let _ ← zeroField (midField w)
  let _ ← zeroField (gapField w)
  let _ ← withinBound ((offField w).toNat + (cntField w).toNat ≤ 28)
  return mk r (offField w) (cntField w)

/-- The decoder (R63): the row of R62 with this `cmd`, its must-be-zero fields, register files and bound. It reads
no state. -/
def decode (w : CmdWord) : Except Illegal Instr :=
  match (cmdField w).toNat with
  | 0x01 => formatI w .xli
  | 0x02 => formatI w .xlih
  | 0x03 => formatR w xSlot xSlot zeroField (fun d a _ => .xmov d a)
  | 0x04 => formatM w xSlot 27 .ldb
  | 0x05 => formatM w xSlot 27 .stb
  | 0x10 => formatR w nSlot nSlot zeroField (fun d a _ => .nmov d a)
  | 0x11 => formatR w nSlot xSlot zeroField (fun d a _ => .nfromx d a)
  | 0x12 => formatR w xSlot nSlot zeroField (fun d a _ => .ntox d a)
  | 0x13 => formatM w nSlot 24 .nld
  | 0x14 => formatM w nSlot 24 .nst
  | 0x15 => formatR w nSlot nSlot zeroField (fun d a _ => .nnot d a)
  | 0x16 => formatR w nSlot nSlot nSlot .nand
  | 0x17 => formatR w nSlot nSlot nSlot .nor
  | 0x18 => formatR w nSlot nSlot nSlot .nxor
  | 0x20 => formatR w nSlot nSlot xSlot .nadd
  | 0x21 => formatR w nSlot nSlot xSlot .nsub
  | 0x22 => formatR w nSlot zeroField zeroField (fun d _ _ => .ninc d)
  | 0x23 => formatR w nSlot zeroField zeroField (fun d _ _ => .ndec d)
  | 0x24 => formatR w nSlot nSlot zeroField (fun d a _ => .nincp d a)
  | 0x25 => formatR w nSlot nSlot zeroField (fun d a _ => .ndecp d a)
  | 0x26 => formatR w xSlot nSlot nSlot .neq
  | 0x27 => formatR w xSlot nSlot nSlot .nlt
  | 0x28 => formatR w xSlot nSlot zeroField (fun d a _ => .nismask d a)
  | 0x29 => formatR w nSlot nSlot nSlot .nnet
  | 0x2A => formatR w nSlot nSlot nSlot .nbcast
  | 0x30 => formatR w hSlot hSlot zeroField (fun d a _ => .hmov d a)
  | 0x31 => formatM w hSlot 22 .hld
  | 0x32 => formatML w .hldl
  | 0x33 => formatM w hSlot 22 .hst
  | 0x34 => formatR w xSlot hSlot hSlot .heq
  | 0x35 => formatR w xSlot hSlot hSlot .hne
  | 0x36 => formatR w xSlot hSlot zeroField (fun d a _ => .hisnull d a)
  | 0x37 => formatR w hSlot zeroField zeroField (fun d _ _ => .hsetbc d)
  | 0x40 => formatR w zeroField zeroField zeroField (fun _ _ _ => .finit)
  | 0x41 => formatR w zeroField zeroField zeroField (fun _ _ _ => .fenc)
  | 0x42 => formatR w zeroField zeroField zeroField (fun _ _ _ => .fdec)
  | 0x50 => formatR w zeroField xSlot zeroField (fun _ a _ => .fshtype a)
  | 0x51 => formatR w zeroField xSlot zeroField (fun _ a _ => .fsptype a)
  | 0x52 => formatR w zeroField xSlot zeroField (fun _ a _ => .fshlen a)
  | 0x53 => formatR w zeroField xSlot zeroField (fun _ a _ => .fsplen a)
  | 0x54 => formatR w zeroField xSlot zeroField (fun _ a _ => .fsoper a)
  | 0x55 => formatR w zeroField hSlot zeroField (fun _ a _ => .fssha a)
  | 0x56 => formatR w zeroField nSlot zeroField (fun _ a _ => .fsspa a)
  | 0x57 => formatR w zeroField hSlot zeroField (fun _ a _ => .fstha a)
  | 0x58 => formatR w zeroField nSlot zeroField (fun _ a _ => .fstpa a)
  | 0x60 => formatR w xSlot zeroField zeroField (fun d _ _ => .fghtype d)
  | 0x61 => formatR w xSlot zeroField zeroField (fun d _ _ => .fgptype d)
  | 0x62 => formatR w xSlot zeroField zeroField (fun d _ _ => .fghlen d)
  | 0x63 => formatR w xSlot zeroField zeroField (fun d _ _ => .fgplen d)
  | 0x64 => formatR w xSlot zeroField zeroField (fun d _ _ => .fgoper d)
  | 0x65 => formatR w hSlot zeroField zeroField (fun d _ _ => .fgsha d)
  | 0x66 => formatR w nSlot zeroField zeroField (fun d _ _ => .fgspa d)
  | 0x67 => formatR w hSlot zeroField zeroField (fun d _ _ => .fgtha d)
  | 0x68 => formatR w nSlot zeroField zeroField (fun d _ _ => .fgtpa d)
  | _ => .error .reservedCmd

/-! ### The encoder -/

/-- A register index as its nibble (R59). -/
def nibble {n : Nat} (r : Fin n) : BitVec 4 := BitVec.ofNat 4 r.val

/-- A format R word: `W = cmd<<24 | rd<<20 | ra<<16 | rb<<12` (R56). -/
def wordR (cmd : BitVec 8) (rd ra rb : BitVec 4) : CmdWord :=
  cmd.setWidth 32 <<< 24 ||| rd.setWidth 32 <<< 20 ||| ra.setWidth 32 <<< 16 ||| rb.setWidth 32 <<< 12

/-- A format I word: `W = cmd<<24 | rd<<20 | imm16` (R57). -/
def wordI (cmd : BitVec 8) (rd : BitVec 4) (imm : BitVec 16) : CmdWord :=
  cmd.setWidth 32 <<< 24 ||| rd.setWidth 32 <<< 20 ||| imm.setWidth 32

/-- A format M word: `W = cmd<<24 | r<<20 | cnt<<8 | off` (R58). -/
def wordM (cmd : BitVec 8) (r : BitVec 4) (cnt : BitVec 4) (off : BitVec 5) : CmdWord :=
  cmd.setWidth 32 <<< 24 ||| r.setWidth 32 <<< 20 ||| cnt.setWidth 32 <<< 8 ||| off.setWidth 32

/-- The word of a command (R62): unused slots are zero. -/
def encode : Instr → CmdWord
  | .xli d imm => wordI 0x01 (nibble d) imm
  | .xlih d imm => wordI 0x02 (nibble d) imm
  | .xmov d a => wordR 0x03 (nibble d) (nibble a) 0
  | .ldb r off => wordM 0x04 (nibble r) 0 off
  | .stb r off => wordM 0x05 (nibble r) 0 off
  | .nmov d a => wordR 0x10 (nibble d) (nibble a) 0
  | .nfromx d a => wordR 0x11 (nibble d) (nibble a) 0
  | .ntox d a => wordR 0x12 (nibble d) (nibble a) 0
  | .nld r off => wordM 0x13 (nibble r) 0 off
  | .nst r off => wordM 0x14 (nibble r) 0 off
  | .nnot d a => wordR 0x15 (nibble d) (nibble a) 0
  | .nand d a b => wordR 0x16 (nibble d) (nibble a) (nibble b)
  | .nor d a b => wordR 0x17 (nibble d) (nibble a) (nibble b)
  | .nxor d a b => wordR 0x18 (nibble d) (nibble a) (nibble b)
  | .nadd d a b => wordR 0x20 (nibble d) (nibble a) (nibble b)
  | .nsub d a b => wordR 0x21 (nibble d) (nibble a) (nibble b)
  | .ninc d => wordR 0x22 (nibble d) 0 0
  | .ndec d => wordR 0x23 (nibble d) 0 0
  | .nincp d a => wordR 0x24 (nibble d) (nibble a) 0
  | .ndecp d a => wordR 0x25 (nibble d) (nibble a) 0
  | .neq d a b => wordR 0x26 (nibble d) (nibble a) (nibble b)
  | .nlt d a b => wordR 0x27 (nibble d) (nibble a) (nibble b)
  | .nismask d a => wordR 0x28 (nibble d) (nibble a) 0
  | .nnet d a b => wordR 0x29 (nibble d) (nibble a) (nibble b)
  | .nbcast d a b => wordR 0x2A (nibble d) (nibble a) (nibble b)
  | .hmov d a => wordR 0x30 (nibble d) (nibble a) 0
  | .hld r off => wordM 0x31 (nibble r) 0 off
  | .hldl r off cnt => wordM 0x32 (nibble r) cnt off
  | .hst r off => wordM 0x33 (nibble r) 0 off
  | .heq d a b => wordR 0x34 (nibble d) (nibble a) (nibble b)
  | .hne d a b => wordR 0x35 (nibble d) (nibble a) (nibble b)
  | .hisnull d a => wordR 0x36 (nibble d) (nibble a) 0
  | .hsetbc d => wordR 0x37 (nibble d) 0 0
  | .finit => wordR 0x40 0 0 0
  | .fenc => wordR 0x41 0 0 0
  | .fdec => wordR 0x42 0 0 0
  | .fshtype a => wordR 0x50 0 (nibble a) 0
  | .fsptype a => wordR 0x51 0 (nibble a) 0
  | .fshlen a => wordR 0x52 0 (nibble a) 0
  | .fsplen a => wordR 0x53 0 (nibble a) 0
  | .fsoper a => wordR 0x54 0 (nibble a) 0
  | .fssha a => wordR 0x55 0 (nibble a) 0
  | .fsspa a => wordR 0x56 0 (nibble a) 0
  | .fstha a => wordR 0x57 0 (nibble a) 0
  | .fstpa a => wordR 0x58 0 (nibble a) 0
  | .fghtype d => wordR 0x60 (nibble d) 0 0
  | .fgptype d => wordR 0x61 (nibble d) 0 0
  | .fghlen d => wordR 0x62 (nibble d) 0 0
  | .fgplen d => wordR 0x63 (nibble d) 0 0
  | .fgoper d => wordR 0x64 (nibble d) 0 0
  | .fgsha d => wordR 0x65 (nibble d) 0 0
  | .fgspa d => wordR 0x66 (nibble d) 0 0
  | .fgtha d => wordR 0x67 (nibble d) 0 0
  | .fgtpa d => wordR 0x68 (nibble d) 0 0

/-- The command code of a command (R61: `cmd[7:4]` the group, `cmd[3:0]` the function). -/
def Instr.cmd : Instr → BitVec 8
  | .xli _ _ => 0x01
  | .xlih _ _ => 0x02
  | .xmov _ _ => 0x03
  | .ldb _ _ => 0x04
  | .stb _ _ => 0x05
  | .nmov _ _ => 0x10
  | .nfromx _ _ => 0x11
  | .ntox _ _ => 0x12
  | .nld _ _ => 0x13
  | .nst _ _ => 0x14
  | .nnot _ _ => 0x15
  | .nand _ _ _ => 0x16
  | .nor _ _ _ => 0x17
  | .nxor _ _ _ => 0x18
  | .nadd _ _ _ => 0x20
  | .nsub _ _ _ => 0x21
  | .ninc _ => 0x22
  | .ndec _ => 0x23
  | .nincp _ _ => 0x24
  | .ndecp _ _ => 0x25
  | .neq _ _ _ => 0x26
  | .nlt _ _ _ => 0x27
  | .nismask _ _ => 0x28
  | .nnet _ _ _ => 0x29
  | .nbcast _ _ _ => 0x2A
  | .hmov _ _ => 0x30
  | .hld _ _ => 0x31
  | .hldl _ _ _ => 0x32
  | .hst _ _ => 0x33
  | .heq _ _ _ => 0x34
  | .hne _ _ _ => 0x35
  | .hisnull _ _ => 0x36
  | .hsetbc _ => 0x37
  | .finit => 0x40
  | .fenc => 0x41
  | .fdec => 0x42
  | .fshtype _ => 0x50
  | .fsptype _ => 0x51
  | .fshlen _ => 0x52
  | .fsplen _ => 0x53
  | .fsoper _ => 0x54
  | .fssha _ => 0x55
  | .fsspa _ => 0x56
  | .fstha _ => 0x57
  | .fstpa _ => 0x58
  | .fghtype _ => 0x60
  | .fgptype _ => 0x61
  | .fghlen _ => 0x62
  | .fgplen _ => 0x63
  | .fgoper _ => 0x64
  | .fgsha _ => 0x65
  | .fgspa _ => 0x66
  | .fgtha _ => 0x67
  | .fgtpa _ => 0x68

/-! ### The table of R62 as data

The decoder above does not read it: it is the spec's second description of the same words, kept so that the two can be
stated to agree. -/

/-- The offset condition of a row (R58's second table). -/
inductive OffsetRule where
  | free
  | atMost (max : Nat)
  | withCount
deriving DecidableEq, Repr

/-- One row of R62: `cmd`, `match`, `mask`, and for format M the condition of R58. -/
structure OpcodeRow where
  cmd : BitVec 8
  pattern : CmdWord
  mask : CmdWord
  rule : OffsetRule
deriving DecidableEq, Repr

/-- A word meets an offset condition. -/
def OffsetRule.holds (w : CmdWord) : OffsetRule → Bool
  | .free => true
  | .atMost max => (offField w).toNat ≤ max
  | .withCount => (offField w).toNat + (cntField w).toNat ≤ 28

/-- A word is a row's command: `(W & mask) == match` and the offset condition (R62). -/
def OpcodeRow.selects (row : OpcodeRow) (w : CmdWord) : Bool :=
  w &&& row.mask == row.pattern && row.rule.holds w

/-- Group 0: support. -/
def rowsSupport : List OpcodeRow :=
  [⟨0x01, 0x01000000, 0xFF8F0000, .free⟩,
   ⟨0x02, 0x02000000, 0xFF8F0000, .free⟩,
   ⟨0x03, 0x03000000, 0xFF88FFFF, .free⟩,
   ⟨0x04, 0x04000000, 0xFF8FFFE0, .atMost 27⟩,
   ⟨0x05, 0x05000000, 0xFF8FFFE0, .atMost 27⟩]

/-- Group 1: network address, move to bitwise. -/
def rowsNetMove : List OpcodeRow :=
  [⟨0x10, 0x10000000, 0xFF88FFFF, .free⟩,
   ⟨0x11, 0x11000000, 0xFF88FFFF, .free⟩,
   ⟨0x12, 0x12000000, 0xFF88FFFF, .free⟩,
   ⟨0x13, 0x13000000, 0xFF8FFFE0, .atMost 24⟩,
   ⟨0x14, 0x14000000, 0xFF8FFFE0, .atMost 24⟩,
   ⟨0x15, 0x15000000, 0xFF88FFFF, .free⟩,
   ⟨0x16, 0x16000000, 0xFF888FFF, .free⟩,
   ⟨0x17, 0x17000000, 0xFF888FFF, .free⟩,
   ⟨0x18, 0x18000000, 0xFF888FFF, .free⟩]

/-- Group 2: network address, arithmetic to mask. -/
def rowsNetArith : List OpcodeRow :=
  [⟨0x20, 0x20000000, 0xFF888FFF, .free⟩,
   ⟨0x21, 0x21000000, 0xFF888FFF, .free⟩,
   ⟨0x22, 0x22000000, 0xFF8FFFFF, .free⟩,
   ⟨0x23, 0x23000000, 0xFF8FFFFF, .free⟩,
   ⟨0x24, 0x24000000, 0xFF88FFFF, .free⟩,
   ⟨0x25, 0x25000000, 0xFF88FFFF, .free⟩,
   ⟨0x26, 0x26000000, 0xFF888FFF, .free⟩,
   ⟨0x27, 0x27000000, 0xFF888FFF, .free⟩,
   ⟨0x28, 0x28000000, 0xFF88FFFF, .free⟩,
   ⟨0x29, 0x29000000, 0xFF888FFF, .free⟩,
   ⟨0x2A, 0x2A000000, 0xFF888FFF, .free⟩]

/-- Group 3: hardware address. -/
def rowsHardware : List OpcodeRow :=
  [⟨0x30, 0x30000000, 0xFFCCFFFF, .free⟩,
   ⟨0x31, 0x31000000, 0xFFCFFFE0, .atMost 22⟩,
   ⟨0x32, 0x32000000, 0xFFCFF0E0, .withCount⟩,
   ⟨0x33, 0x33000000, 0xFFCFFFE0, .atMost 22⟩,
   ⟨0x34, 0x34000000, 0xFF8CCFFF, .free⟩,
   ⟨0x35, 0x35000000, 0xFF8CCFFF, .free⟩,
   ⟨0x36, 0x36000000, 0xFF8CFFFF, .free⟩,
   ⟨0x37, 0x37000000, 0xFFCFFFFF, .free⟩]

/-- Group 4: frame control. -/
def rowsFrameControl : List OpcodeRow :=
  [⟨0x40, 0x40000000, 0xFFFFFFFF, .free⟩,
   ⟨0x41, 0x41000000, 0xFFFFFFFF, .free⟩,
   ⟨0x42, 0x42000000, 0xFFFFFFFF, .free⟩]

/-- Group 5: frame setters. -/
def rowsFrameSet : List OpcodeRow :=
  [⟨0x50, 0x50000000, 0xFFF8FFFF, .free⟩,
   ⟨0x51, 0x51000000, 0xFFF8FFFF, .free⟩,
   ⟨0x52, 0x52000000, 0xFFF8FFFF, .free⟩,
   ⟨0x53, 0x53000000, 0xFFF8FFFF, .free⟩,
   ⟨0x54, 0x54000000, 0xFFF8FFFF, .free⟩,
   ⟨0x55, 0x55000000, 0xFFFCFFFF, .free⟩,
   ⟨0x56, 0x56000000, 0xFFF8FFFF, .free⟩,
   ⟨0x57, 0x57000000, 0xFFFCFFFF, .free⟩,
   ⟨0x58, 0x58000000, 0xFFF8FFFF, .free⟩]

/-- Group 6: frame getters. -/
def rowsFrameGet : List OpcodeRow :=
  [⟨0x60, 0x60000000, 0xFF8FFFFF, .free⟩,
   ⟨0x61, 0x61000000, 0xFF8FFFFF, .free⟩,
   ⟨0x62, 0x62000000, 0xFF8FFFFF, .free⟩,
   ⟨0x63, 0x63000000, 0xFF8FFFFF, .free⟩,
   ⟨0x64, 0x64000000, 0xFF8FFFFF, .free⟩,
   ⟨0x65, 0x65000000, 0xFFCFFFFF, .free⟩,
   ⟨0x66, 0x66000000, 0xFF8FFFFF, .free⟩,
   ⟨0x67, 0x67000000, 0xFFCFFFFF, .free⟩,
   ⟨0x68, 0x68000000, 0xFF8FFFFF, .free⟩]

/-- The 54 rows of R62. -/
def opcodeRows : List OpcodeRow :=
  rowsSupport ++ rowsNetMove ++ rowsNetArith ++ rowsHardware ++ rowsFrameControl ++ rowsFrameSet ++ rowsFrameGet

/-! ### The host's view -/

/-- The command word whose bits are `w`, the bits above `nbits` being 0. The word is a value on the command port, not
bytes in a memory, so no byte order enters (R55). -/
def tableWord (nbits w : Nat) : CmdWord := BitVec.ofNat 32 (w % 2 ^ nbits)

/-- The command the decoder reads from the word `w` of `nbits` bits, `none` where it refuses. -/
def decodeTableWord (nbits w : Nat) : Option Instr :=
  match decode (tableWord nbits w) with
  | .ok i => some i
  | .error _ => none

end Sys2Proof
end

