-- ==== Sys2Proof/Config.lean ====
section
/-! DEFINITION. What an implementation fixes: the parameters of 00_scope.md R6. The two that R6 marks OPEN are
opaque constants, so a statement about them holds for either value. -/

namespace Sys2Proof.Config

/-- `RAW_LE`, the key of the NetworkAddress ordering (R6, R99). OPEN in the spec: no body, log entry 4. -/
opaque rawLe : Bool

/-- `LEADING_ZERO_OK`, whether the dotted-quad reference parser takes an octet written with leading zeros
(R6, R172). OPEN in the spec: no body, log entry 5. -/
opaque leadingZeroOk : Bool

/-- `HEX_UPPER_OK = true`: the colon-hex reference parser takes `A` to `F` as well (R6, R176). -/
def hexUpperOk : Bool := true

end Sys2Proof.Config
end

