-- ==== Sys2Proof/Machine/State.lean ====
section
/-! DEFINITION. The state of ARPCODEC as plain data (10_state.md), its value after reset (R33), and the reasons a step
can stop. INVENTORY.md lists every field with its rule. -/

namespace Sys2Proof.Machine

/-- The completion code of a command (R27). Exactly five values: codes 5 to 15 are never written (U17). -/
inductive Code where
  /-- 0: the command did what its rule says. -/
  | ok
  /-- 1: a range-checked address operation would have passed `0xFFFFFFFF`. -/
  | overflow
  /-- 2: a range-checked address operation would have passed `0`. -/
  | underflow
  /-- 3: `HLDL` was given fewer than 6 elements. -/
  | shortList
  /-- 4: the word is not a legal command. -/
  | illegalCmd
deriving DecidableEq, Repr

/-- The nine frame field registers F, in wire order (R25). -/
structure Frame where
  /-- hardwareType -/
  htype : BitVec 16
  /-- protocolType -/
  ptype : BitVec 16
  /-- hwAddrLen -/
  hlen : BitVec 8
  /-- protoAddrLen -/
  plen : BitVec 8
  /-- opcode -/
  oper : BitVec 16
  /-- senderHwAddr -/
  sha : HwAddr
  /-- senderProtoAddr -/
  spa : NetAddr
  /-- targetHwAddr -/
  tha : HwAddr
  /-- targetProtoAddr -/
  tpa : NetAddr
deriving DecidableEq, Repr

/-- The default-constructed frame: `ETHERNET`, `IPV4`, lengths 6 and 4, `REQUEST`, all addresses zero (R25, R158). -/
def defaultFrame : Frame :=
  { htype := 1, ptype := 0x0800, hlen := 6, plen := 4, oper := 1, sha := 0, spa := 0, tha := 0, tpa := 0 }

/-- The wire buffer as a list of (offset, byte) cells in canonical form: offsets strictly rising, all below 28, and no
cell equal to what an unlisted offset reads as (Machine/Memory.lean, log entry 6). -/
abbrev Memory := List Host.Cell

/-- A value on the host port, of one of the widths a piece of state has (R31). -/
inductive HostValue where
  | b8 (v : BitVec 8)
  | b16 (v : BitVec 16)
  | b32 (v : BitVec 32)
  | b48 (v : BitVec 48)
deriving DecidableEq, Repr

/-- The host's moves (R194). -/
inductive HostMove where
  | reset
  | issue (w : CmdWord)
  | hostRead (sel : BitVec 8)
  | hostWrite (sel : BitVec 8) (v : HostValue)
deriving DecidableEq, Repr

/-- What the host gets from a move (R194): the response to a command, the value of a read, or nothing. -/
inductive HostAnswer where
  | nothing
  | code (c : Code)
  | value (v : HostValue)
deriving DecidableEq, Repr

/-- The machine: the block's registers (R30: there is no other state), and two fields that are the host's side of the
ports, `pending` (log entry 1) and `answer` (log entry 3). -/
structure State where
  /-- scalar registers `X[0..7]` (R20) -/
  x : Vector Scalar 8
  /-- network-address registers `N[0..7]` (R21) -/
  n : Vector NetAddr 8
  /-- hardware-address registers `H[0..3]` (R23) -/
  h : Vector HwAddr 4
  /-- frame field registers F (R25) -/
  f : Frame
  /-- wire buffer `WB[0..27]` (R26) -/
  wb : Memory
  /-- `ST.code` (R27) -/
  st : Code
  /-- the host's moves still to come, the next one first (R28, R196) -/
  pending : List HostMove
  /-- what the host got from its last move (R193, R194) -/
  answer : HostAnswer
deriving DecidableEq, Repr

/-- The state after reset (R33, R200). The block's fields are all stated by R33; `pending` is empty because nothing is
placed, and `answer` is `nothing` (log entries 1 and 3). -/
def State.reset : State :=
  { x := Vector.replicate 8 0, n := Vector.replicate 8 0, h := Vector.replicate 4 0, f := defaultFrame, wb := [],
    st := .ok, pending := [], answer := .nothing }

/-- Why the machine could stop. The spec has no fault that stops the block (R183, R192). -/
inductive Fault where
  /-- An access that would pass the end of the wire buffer. Raised by `inBuffer` for a command term whose offset or
  count breaks R58; no word decodes to such a term (R45), so no step of the machine raises it. Safe (log entry 7). -/
  | outsideWireBuffer
deriving DecidableEq, Repr

/-- Why a move has no meaning. -/
inductive Refusal where
  /-- An instruction without a meaning yet: raised by no arm of `exec` in this model. Safe. -/
  | notModelled (mnemonic : String)
  /-- A `HostWrite` of a value that is not of the state's width: the host is assumed never to make it, and a model
  refuses it (R195 (c)). Raised by `hostWrite`. Safe (log entry 8). -/
  | illTypedHostWrite
deriving DecidableEq, Repr

end Sys2Proof.Machine
end

