-- ==== Sys2Proof/Machine/Memory.lean ====
section
/-! DEFINITION. The wire buffer's byte reads and writes in canonical form, and the big-endian byte sequences of
00_scope.md R8 and 20_memory.md R42. -/

namespace Sys2Proof.Machine

/-- What an offset that is not listed reads as: the reset content of `WB` (R33). Log entry 6. -/
def unlistedByte : Byte := 0

/-- `WB[o]`. -/
def readByte : Memory → Nat → Byte
  | [], _ => unlistedByte
  | c :: rest, o => if c.1 = o then c.2 else readByte rest o

/-- Puts a cell at its place in a list that rises by offset. -/
def insertCell (c : Host.Cell) : Memory → Memory
  | [] => [c]
  | d :: rest => if c.1 < d.1 then c :: d :: rest else d :: insertCell c rest

/-- `WB[o] <- b`, the rest unchanged (R47). Writing what an unlisted offset reads as removes the cell. -/
def writeByte (m : Memory) (o : Nat) (b : Byte) : Memory :=
  if b = unlistedByte then m.filter (fun c => c.1 != o) else insertCell (o, b) (m.filter (fun c => c.1 != o))

/-- `[WB[o], ..., WB[o+n-1]]`. -/
def readBytes (m : Memory) (o : Nat) : Nat → List Byte
  | 0 => []
  | n + 1 => readByte m o :: readBytes m (o + 1) n

/-- `[WB[o], WB[o+1], ...] <- bs`. -/
def writeBytes (m : Memory) (o : Nat) : List Byte → Memory
  | [] => m
  | b :: bs => writeBytes (writeByte m o b) (o + 1) bs

/-- The canonical form: offsets strictly rising and inside the 28 bytes (R40), no cell equal to an unlisted byte. -/
abbrev Memory.wf (m : Memory) : Prop :=
  m.Pairwise (fun c d => c.1 < d.1) ∧ ∀ c ∈ m, c.1 < 28 ∧ c.2 ≠ unlistedByte

/-- `be_n(v)`: the low `n` bytes of `v`, most significant first (R8). -/
def be {w : Nat} (v : BitVec w) : Nat → List Byte
  | 0 => []
  | n + 1 => v.extractLsb' (8 * n) 8 :: be v n

/-- `frombe(bs)` as a value of `w` bits (R8): the first byte is the most significant. -/
def frombe (w : Nat) (bs : List Byte) : BitVec w :=
  bs.foldl (fun acc b => (acc <<< 8) ||| b.setWidth w) 0

/-- `bswap32(v)`: the four bytes in the reverse order (R8). -/
def bswap32 (v : BitVec 32) : BitVec 32 := frombe 32 (be v 4).reverse

end Sys2Proof.Machine
end

