-- ==== Sys2Proof/Machine/Flags.lean ====
section
/-! DEFINITION. What the block computes in place of flags. It has none (10_state.md R29): a test gives 0 or 1, a range
check a completion code. The range check is 40_network_address.md R90, the ordering R99, the mask test R100. -/

namespace Sys2Proof.Machine

/-- A truth value as an X register value: `zext_32(b ? 1 : 0)` (R29). -/
def boolX (b : Bool) : Scalar := if b then 1 else 0

/-- `uval(v)`: the host-order integer of an address (R22). -/
def uval (v : NetAddr) : Int := v.toNat

/-- `sval_32(v)`: the two's-complement integer of a scalar (R7). -/
def sval (v : Scalar) : Int := v.toInt

/-- The range check of R90 on an exact result: above `0xFFFFFFFF` is OVERFLOW, below 0 UNDERFLOW, else the 32-bit
value. It never wraps and never saturates. -/
def rangeCheck (r : Int) : Except Code NetAddr :=
  if r > 0xFFFFFFFF then .error .overflow
  else if r < 0 then .error .underflow
  else .ok (BitVec.ofInt 32 r)

/-- `key(v)` of the ordering, for a given value of `RAW_LE` (R99). -/
def orderKey (rawLe : Bool) (v : NetAddr) : BitVec 32 := if rawLe then bswap32 v else v

/-- `v` is before `w`, for a given value of `RAW_LE` (R99). -/
def isBefore (rawLe : Bool) (v w : NetAddr) : Bool := (orderKey rawLe v).toNat < (orderKey rawLe w).toNat

/-- `isValidNetmask()` (R100): not zero, low byte neither 254 nor 255, and complement + 1, summed in unbounded
integers, shares no bit with the complement. -/
def isValidMask (v : NetAddr) : Bool :=
  v != 0 && v.extractLsb' 0 8 != 0xFE && v.extractLsb' 0 8 != 0xFF && (((~~~v).toNat + 1) &&& (~~~v).toNat) == 0

end Sys2Proof.Machine
end

