-- ==== Sys2Proof/Machine/Operands.lean ====
section
/-! DEFINITION. The operand forms: reads and writes of the three register files (10_state.md R20 to R24), of the frame
field registers (R25) and of wire-buffer bytes at an immediate offset (43_support.md R166). No register is hardwired
and none has an alias. -/

namespace Sys2Proof.Machine

/-- `X[r]`. -/
def State.getX (s : State) (r : XReg) : Scalar := s.x[r]

/-- `N[r]`. -/
def State.getN (s : State) (r : NReg) : NetAddr := s.n[r]

/-- `H[r]`. -/
def State.getH (s : State) (r : HReg) : HwAddr := s.h[r]

/-- `X[r] <- v`. -/
def State.setX (s : State) (r : XReg) (v : Scalar) : State := { s with x := s.x.set r v }

/-- `N[r] <- v`. -/
def State.setN (s : State) (r : NReg) (v : NetAddr) : State := { s with n := s.n.set r v }

/-- `H[r] <- v`. -/
def State.setH (s : State) (r : HReg) (v : HwAddr) : State := { s with h := s.h.set r v }

/-- `F <- f`, all nine fields. -/
def State.setF (s : State) (f : Frame) : State := { s with f := f }

/-- `WB[o]`. -/
def State.byte (s : State) (o : Nat) : Byte := readByte s.wb o

/-- The bytes of `MemRead(off, n)`, the first at the lowest offset (R9). Defined when `off + n <= 28`: `inBuffer`. -/
def State.memRead (s : State) (off n : Nat) : List Byte := readBytes s.wb off n

/-- `MemWrite(off, n, v)` with the bytes `be_n(v)` given (R9). Defined when `off + n <= 28`: `inBuffer`. -/
def State.memWrite (s : State) (off : Nat) (bs : List Byte) : State := { s with wb := writeBytes s.wb off bs }

/-- A narrow value in an X register: zero-extended to 32 bits (R20, R60). -/
def zext32 {w : Nat} (v : BitVec w) : Scalar := v.setWidth 32

/-- The low bits of an X register, the rest ignored (R20, R136). -/
def lowBits (w : Nat) (v : Scalar) : BitVec w := v.setWidth w

/-- `XLIH`'s new value: `{imm16, v[15:0]}` (R60, R162). -/
def withUpperHalf (imm : BitVec 16) (v : Scalar) : Scalar :=
  imm.setWidth 32 <<< 16 ||| (v.extractLsb' 0 16).setWidth 32

end Sys2Proof.Machine
end

