-- ==== Sys2Proof/Machine/Ops.lean ====
section
/-! DEFINITION. How a command ends, shared by every meaning: completing, raising an error (60_exceptions.md R183, the
block's only "exception entry"; there is nothing to return from, R186), the bound of an access, and range-checked
arithmetic. -/

namespace Sys2Proof.Machine

/-- What a step answers. -/
abbrev StepResult := Host.Outcome State Fault Refusal

/-- The command completes: `ST.code <- c`, and the response carries the same code (R27, R193). -/
def State.complete (s : State) (c : Code) : State := { s with st := c, answer := .code c }

/-- `ok`: the command completes with `ST.code <- OK` after its writes (R9). -/
def finish (s : State) : StepResult := .next (s.complete .ok)

/-- `raise E`: the command completes with `ST.code <- E` and no other state change. Nothing is saved, no mode changes,
control goes nowhere (R183). `s` is the state before the command. -/
def raise (c : Code) (s : State) : StepResult := .next (s.complete c)

/-- An access of `n` bytes at `off` exists only inside the buffer (R44, R45). A decoded command always is. -/
def inBuffer (off n : Nat) (k : StepResult) : StepResult :=
  if off + n ≤ 28 then k else .fault .outsideWireBuffer

/-- Range-checked arithmetic (R90): `wr` performs the command's writes with the 32-bit result; on an error no register
is written. -/
def arith (r : Int) (wr : NetAddr → State) (s : State) : StepResult :=
  match rangeCheck r with
  | .ok v => finish (wr v)
  | .error c => raise c s

end Sys2Proof.Machine
end

