-- ==== Sys2Proof/Machine/ArpFrame.lean ====
section
/-! DEFINITION. `encode(F)` and `decode(b)` (42_arp_frame.md R130, R131) in the layout of 20_memory.md R43, and the
meanings of the 21 frame commands (R133 to R155). None raises an error and none validates a field (R156). -/

namespace Sys2Proof.Machine

/-- `encode(F)`: the nine fields in wire order, each most significant byte first, 28 bytes (R130). -/
def encodeFrame (f : Frame) : List Byte :=
  be f.htype 2 ++ be f.ptype 2 ++ be f.hlen 1 ++ be f.plen 1 ++ be f.oper 2 ++ be f.sha 6 ++ be f.spa 4 ++
    be f.tha 6 ++ be f.tpa 4

/-- The `n` bytes of `b` from offset `o`. -/
def slice (b : List Byte) (o n : Nat) : List Byte := (b.drop o).take n

/-- `decode(b)`: the fields at offsets 0, 2, 4, 5, 6, 8, 14, 18 and 24, whatever they hold (R131, R156). -/
def decodeFrame (b : List Byte) : Frame :=
  { htype := frombe 16 (slice b 0 2)
    ptype := frombe 16 (slice b 2 2)
    hlen := frombe 8 (slice b 4 1)
    plen := frombe 8 (slice b 5 1)
    oper := frombe 16 (slice b 6 2)
    sha := frombe 48 (slice b 8 6)
    spa := frombe 32 (slice b 14 4)
    tha := frombe 48 (slice b 18 6)
    tpa := frombe 32 (slice b 24 4) }

/-! ### Frame control -/

/-- `FINIT` (R133): the default-constructed frame. -/
def execFinit (s : State) : StepResult := finish (s.setF defaultFrame)

/-- `FENC` (R134): all 28 bytes of `WB` from F. -/
def execFenc (s : State) : StepResult := finish (s.memWrite 0 (encodeFrame s.f))

/-- `FDEC` (R135): all nine fields of F from `WB`. -/
def execFdec (s : State) : StepResult := finish (s.setF (decodeFrame (s.memRead 0 28)))

/-! ### Setters (R136): the other eight fields, `WB` and the source register keep their values -/

/-- `FSHTYPE xa` (R137). -/
def execFshtype (a : XReg) (s : State) : StepResult := finish (s.setF { s.f with htype := lowBits 16 (s.getX a) })

/-- `FSPTYPE xa` (R138). -/
def execFsptype (a : XReg) (s : State) : StepResult := finish (s.setF { s.f with ptype := lowBits 16 (s.getX a) })

/-- `FSHLEN xa` (R139). -/
def execFshlen (a : XReg) (s : State) : StepResult := finish (s.setF { s.f with hlen := lowBits 8 (s.getX a) })

/-- `FSPLEN xa` (R140). -/
def execFsplen (a : XReg) (s : State) : StepResult := finish (s.setF { s.f with plen := lowBits 8 (s.getX a) })

/-- `FSOPER xa` (R141). -/
def execFsoper (a : XReg) (s : State) : StepResult := finish (s.setF { s.f with oper := lowBits 16 (s.getX a) })

/-- `FSSHA ha` (R142). -/
def execFssha (a : HReg) (s : State) : StepResult := finish (s.setF { s.f with sha := s.getH a })

/-- `FSSPA na` (R143). -/
def execFsspa (a : NReg) (s : State) : StepResult := finish (s.setF { s.f with spa := s.getN a })

/-- `FSTHA ha` (R144). -/
def execFstha (a : HReg) (s : State) : StepResult := finish (s.setF { s.f with tha := s.getH a })

/-- `FSTPA na` (R145). -/
def execFstpa (a : NReg) (s : State) : StepResult := finish (s.setF { s.f with tpa := s.getN a })

/-! ### Getters (R146): an integer field is zero-extended, an address copied whole -/

/-- `FGHTYPE xd` (R147). -/
def execFghtype (d : XReg) (s : State) : StepResult := finish (s.setX d (zext32 s.f.htype))

/-- `FGPTYPE xd` (R148). -/
def execFgptype (d : XReg) (s : State) : StepResult := finish (s.setX d (zext32 s.f.ptype))

/-- `FGHLEN xd` (R149). -/
def execFghlen (d : XReg) (s : State) : StepResult := finish (s.setX d (zext32 s.f.hlen))

/-- `FGPLEN xd` (R150). -/
def execFgplen (d : XReg) (s : State) : StepResult := finish (s.setX d (zext32 s.f.plen))

/-- `FGOPER xd` (R151). -/
def execFgoper (d : XReg) (s : State) : StepResult := finish (s.setX d (zext32 s.f.oper))

/-- `FGSHA hd` (R152). -/
def execFgsha (d : HReg) (s : State) : StepResult := finish (s.setH d s.f.sha)

/-- `FGSPA nd` (R153). -/
def execFgspa (d : NReg) (s : State) : StepResult := finish (s.setN d s.f.spa)

/-- `FGTHA hd` (R154). -/
def execFgtha (d : HReg) (s : State) : StepResult := finish (s.setH d s.f.tha)

/-- `FGTPA nd` (R155). -/
def execFgtpa (d : NReg) (s : State) : StepResult := finish (s.setN d s.f.tpa)

end Sys2Proof.Machine
end

