-- ==== Sys2Proof/Machine/HardwareAddress.lean ====
section
/-! DEFINITION. The meanings of the HardwareAddress commands (41_hardware_address.md R111 to R118). The type has no
arithmetic, bitwise operation or ordering (R119). -/

namespace Sys2Proof.Machine

/-- `HMOV hd, ha` (R111). -/
def execHmov (d a : HReg) (s : State) : StepResult := finish (s.setH d (s.getH a))

/-- `HLD hr, off` (R112): exactly 6 bytes, the rest of the buffer is excess. -/
def execHld (r : HReg) (off : BitVec 5) (s : State) : StepResult :=
  inBuffer off.toNat 6 (finish (s.setH r (frombe 48 (s.memRead off.toNat 6))))

/-- `HLDL hr, off, cnt` (R113): the list is the `cnt` bytes at `off`. The bound is found before the count is looked at
(R185); fewer than 6 elements is SHORT_LIST, more than 6 are ignored. -/
def execHldl (r : HReg) (off : BitVec 5) (cnt : BitVec 4) (s : State) : StepResult :=
  inBuffer off.toNat cnt.toNat
    (if cnt.toNat < 6 then raise .shortList s else finish (s.setH r (frombe 48 (s.memRead off.toNat 6))))

/-- `HST hr, off` (R114). -/
def execHst (r : HReg) (off : BitVec 5) (s : State) : StepResult :=
  inBuffer off.toNat 6 (finish (s.memWrite off.toNat (be (s.getH r) 6)))

/-- `HEQ xd, ha, hb` (R115): all six bytes equal. -/
def execHeq (d : XReg) (a b : HReg) (s : State) : StepResult :=
  finish (s.setX d (boolX (s.getH a == s.getH b)))

/-- `HNE xd, ha, hb` (R116): the complement of `HEQ`. -/
def execHne (d : XReg) (a b : HReg) (s : State) : StepResult :=
  finish (s.setX d (boolX (s.getH a != s.getH b)))

/-- `HISNULL xd, ha` (R117): all six bytes zero. -/
def execHisnull (d : XReg) (a : HReg) (s : State) : StepResult := finish (s.setX d (boolX (s.getH a == 0)))

/-- `HSETBC hd` (R118): the broadcast constant. -/
def execHsetbc (d : HReg) (s : State) : StepResult := finish (s.setH d 0xFFFFFFFFFFFF)

end Sys2Proof.Machine
end

