-- ==== Sys2Proof/Machine/NetworkAddress.lean ====
section
/-! DEFINITION. The meanings of the NetworkAddress commands (40_network_address.md R81 to R103). -/

namespace Sys2Proof.Machine

/-! ### Move, convert, load, store -/

/-- `NMOV nd, na` (R81). -/
def execNmov (d a : NReg) (s : State) : StepResult := finish (s.setN d (s.getN a))

/-- `NFROMX nd, xa` (R82). -/
def execNfromx (d : NReg) (a : XReg) (s : State) : StepResult := finish (s.setN d (s.getX a))

/-- `NTOX xd, na` (R83). -/
def execNtox (d : XReg) (a : NReg) (s : State) : StepResult := finish (s.setX d (s.getN a))

/-- `NLD nr, off` (R84). -/
def execNld (r : NReg) (off : BitVec 5) (s : State) : StepResult :=
  inBuffer off.toNat 4 (finish (s.setN r (frombe 32 (s.memRead off.toNat 4))))

/-- `NST nr, off` (R85). -/
def execNst (r : NReg) (off : BitVec 5) (s : State) : StepResult :=
  inBuffer off.toNat 4 (finish (s.memWrite off.toNat (be (s.getN r) 4)))

/-! ### Bitwise -/

/-- `NNOT nd, na` (R86). -/
def execNnot (d a : NReg) (s : State) : StepResult := finish (s.setN d (~~~ s.getN a))

/-- `NAND nd, na, nb` (R87): AND. -/
def execNand (d a b : NReg) (s : State) : StepResult := finish (s.setN d (s.getN a &&& s.getN b))

/-- `NOR nd, na, nb` (R88): inclusive OR, not a negated one. -/
def execNor (d a b : NReg) (s : State) : StepResult := finish (s.setN d (s.getN a ||| s.getN b))

/-- `NXOR nd, na, nb` (R89). -/
def execNxor (d a b : NReg) (s : State) : StepResult := finish (s.setN d (s.getN a ^^^ s.getN b))

/-! ### Range-checked arithmetic (R90) -/

/-- `NADD nd, na, xb` (R91). -/
def execNadd (d a : NReg) (b : XReg) (s : State) : StepResult :=
  arith (uval (s.getN a) + sval (s.getX b)) (fun v => s.setN d v) s

/-- `NSUB nd, na, xb` (R92). -/
def execNsub (d a : NReg) (b : XReg) (s : State) : StepResult :=
  arith (uval (s.getN a) - sval (s.getX b)) (fun v => s.setN d v) s

/-- `NINC nd` (R93): in place. -/
def execNinc (d : NReg) (s : State) : StepResult := arith (uval (s.getN d) + 1) (fun v => s.setN d v) s

/-- `NDEC nd` (R94): in place. -/
def execNdec (d : NReg) (s : State) : StepResult := arith (uval (s.getN d) - 1) (fun v => s.setN d v) s

/-- `NINCP nd, na` (R95): `N[a]` first, then `N[d]` with the old value, so that the second write stands if `d = a`. -/
def execNincp (d a : NReg) (s : State) : StepResult :=
  arith (uval (s.getN a) + 1) (fun v => (s.setN a v).setN d (s.getN a)) s

/-- `NDECP nd, na` (R96): the writes in the order of `NINCP`. -/
def execNdecp (d a : NReg) (s : State) : StepResult :=
  arith (uval (s.getN a) - 1) (fun v => (s.setN a v).setN d (s.getN a)) s

/-! ### Equality and ordering -/

/-- `NEQ xd, na, nb` (R97). -/
def execNeq (d : XReg) (a b : NReg) (s : State) : StepResult :=
  finish (s.setX d (boolX (s.getN a == s.getN b)))

/-- `NLT xd, na, nb` (R98), under the key that `RAW_LE` names (R99). -/
def execNlt (d : XReg) (a b : NReg) (s : State) : StepResult :=
  finish (s.setX d (boolX (isBefore Config.rawLe (s.getN a) (s.getN b))))

/-! ### Subnet masks and derived addresses -/

/-- `NISMASK xd, na` (R100). -/
def execNismask (d : XReg) (a : NReg) (s : State) : StepResult := finish (s.setX d (boolX (isValidMask (s.getN a))))

/-- `NNET nd, na, nb` (R101): `host & mask`; the mask is not tested (R103). -/
def execNnet (d a b : NReg) (s : State) : StepResult := finish (s.setN d (s.getN a &&& s.getN b))

/-- `NBCAST nd, na, nb` (R102): `host | ~mask`; the mask is not tested (R103). -/
def execNbcast (d a b : NReg) (s : State) : StepResult := finish (s.setN d (s.getN a ||| ~~~ s.getN b))

end Sys2Proof.Machine
end

