-- ==== Sys2Proof/Machine/Support.lean ====
section
/-! DEFINITION. The meanings of the support commands (43_support.md R161 to R165). -/

namespace Sys2Proof.Machine

/-- `XLI xd, imm16` (R161). -/
def execXli (d : XReg) (imm : BitVec 16) (s : State) : StepResult := finish (s.setX d (zext32 imm))

/-- `XLIH xd, imm16` (R162). -/
def execXlih (d : XReg) (imm : BitVec 16) (s : State) : StepResult :=
  finish (s.setX d (withUpperHalf imm (s.getX d)))

/-- `XMOV xd, xa` (R163). -/
def execXmov (d a : XReg) (s : State) : StepResult := finish (s.setX d (s.getX a))

/-- `LDB xr, off` (R164). -/
def execLdb (r : XReg) (off : BitVec 5) (s : State) : StepResult :=
  inBuffer off.toNat 1 (finish (s.setX r (zext32 (frombe 8 (s.memRead off.toNat 1)))))

/-- `STB xr, off` (R165). -/
def execStb (r : XReg) (off : BitVec 5) (s : State) : StepResult :=
  inBuffer off.toNat 1 (finish (s.memWrite off.toNat (be (lowBits 8 (s.getX r)) 1)))

end Sys2Proof.Machine
end

