-- ==== Sys2Proof/Machine/Dispatch.lean ====
section
/-! DEFINITION. One arm per command, each a direct call of its meaning. -/

namespace Sys2Proof.Machine

-- The effect of a decoded command (60_exceptions.md R192).
def exec (i : Instr) (s : State) : Host.Outcome State Fault Refusal :=
  match i with
  | .xli d imm => Sys2Proof.Machine.execXli d imm s
  | .xlih d imm => Sys2Proof.Machine.execXlih d imm s
  | .xmov d a => Sys2Proof.Machine.execXmov d a s
  | .ldb r off => Sys2Proof.Machine.execLdb r off s
  | .stb r off => Sys2Proof.Machine.execStb r off s
  | .nmov d a => Sys2Proof.Machine.execNmov d a s
  | .nfromx d a => Sys2Proof.Machine.execNfromx d a s
  | .ntox d a => Sys2Proof.Machine.execNtox d a s
  | .nld r off => Sys2Proof.Machine.execNld r off s
  | .nst r off => Sys2Proof.Machine.execNst r off s
  | .nnot d a => Sys2Proof.Machine.execNnot d a s
  | .nand d a b => Sys2Proof.Machine.execNand d a b s
  | .nor d a b => Sys2Proof.Machine.execNor d a b s
  | .nxor d a b => Sys2Proof.Machine.execNxor d a b s
  | .nadd d a b => Sys2Proof.Machine.execNadd d a b s
  | .nsub d a b => Sys2Proof.Machine.execNsub d a b s
  | .ninc d => Sys2Proof.Machine.execNinc d s
  | .ndec d => Sys2Proof.Machine.execNdec d s
  | .nincp d a => Sys2Proof.Machine.execNincp d a s
  | .ndecp d a => Sys2Proof.Machine.execNdecp d a s
  | .neq d a b => Sys2Proof.Machine.execNeq d a b s
  | .nlt d a b => Sys2Proof.Machine.execNlt d a b s
  | .nismask d a => Sys2Proof.Machine.execNismask d a s
  | .nnet d a b => Sys2Proof.Machine.execNnet d a b s
  | .nbcast d a b => Sys2Proof.Machine.execNbcast d a b s
  | .hmov d a => Sys2Proof.Machine.execHmov d a s
  | .hld r off => Sys2Proof.Machine.execHld r off s
  | .hldl r off cnt => Sys2Proof.Machine.execHldl r off cnt s
  | .hst r off => Sys2Proof.Machine.execHst r off s
  | .heq d a b => Sys2Proof.Machine.execHeq d a b s
  | .hne d a b => Sys2Proof.Machine.execHne d a b s
  | .hisnull d a => Sys2Proof.Machine.execHisnull d a s
  | .hsetbc d => Sys2Proof.Machine.execHsetbc d s
  | .finit => Sys2Proof.Machine.execFinit s
  | .fenc => Sys2Proof.Machine.execFenc s
  | .fdec => Sys2Proof.Machine.execFdec s
  | .fshtype a => Sys2Proof.Machine.execFshtype a s
  | .fsptype a => Sys2Proof.Machine.execFsptype a s
  | .fshlen a => Sys2Proof.Machine.execFshlen a s
  | .fsplen a => Sys2Proof.Machine.execFsplen a s
  | .fsoper a => Sys2Proof.Machine.execFsoper a s
  | .fssha a => Sys2Proof.Machine.execFssha a s
  | .fsspa a => Sys2Proof.Machine.execFsspa a s
  | .fstha a => Sys2Proof.Machine.execFstha a s
  | .fstpa a => Sys2Proof.Machine.execFstpa a s
  | .fghtype d => Sys2Proof.Machine.execFghtype d s
  | .fgptype d => Sys2Proof.Machine.execFgptype d s
  | .fghlen d => Sys2Proof.Machine.execFghlen d s
  | .fgplen d => Sys2Proof.Machine.execFgplen d s
  | .fgoper d => Sys2Proof.Machine.execFgoper d s
  | .fgsha d => Sys2Proof.Machine.execFgsha d s
  | .fgspa d => Sys2Proof.Machine.execFgspa d s
  | .fgtha d => Sys2Proof.Machine.execFgtha d s
  | .fgtpa d => Sys2Proof.Machine.execFgtpa d s

end Sys2Proof.Machine
end

