-- ==== Sys2Proof/Machine/HostPort.lean ====
section
/-! DEFINITION. The host's moves (60_exceptions.md R194): Reset, Issue, HostRead, HostWrite, over the selectors of
10_state.md R31. -/

namespace Sys2Proof.Machine

/-- A piece of state that the host port names (R31). A frame field is given by its number `k` of R25. -/
inductive HostTarget where
  | x (r : XReg)
  | n (r : NReg)
  | h (r : HReg)
  | st
  | f (k : Fin 9)
  | wb (o : Fin 28)
deriving DecidableEq, Repr

/-- The number of a code, `ST.code` in bits 3:0 (R27). -/
def Code.bits : Code → BitVec 4
  | .ok => 0
  | .overflow => 1
  | .underflow => 2
  | .shortList => 3
  | .illegalCmd => 4

/-- What a selector names; `none` where it is not assigned (R31). -/
def selectorTarget (sel : BitVec 8) : Option HostTarget :=
  let k := sel.toNat
  if hx : k < 0x08 then some (.x ⟨k, hx⟩)
  else if hn : 0x10 ≤ k ∧ k < 0x18 then some (.n ⟨k - 0x10, by omega⟩)
  else if hh : 0x20 ≤ k ∧ k < 0x24 then some (.h ⟨k - 0x20, by omega⟩)
  else if k = 0x30 then some .st
  else if hf : 0x40 ≤ k ∧ k < 0x49 then some (.f ⟨k - 0x40, by omega⟩)
  else if hw : 0x80 ≤ k ∧ k < 0x9C then some (.wb ⟨k - 0x80, by omega⟩)
  else none

/-- The value of frame field `k`, of the field's own width (R25). -/
def fieldValue (f : Frame) (k : Fin 9) : HostValue :=
  match k.val with
  | 0 => .b16 f.htype
  | 1 => .b16 f.ptype
  | 2 => .b8 f.hlen
  | 3 => .b8 f.plen
  | 4 => .b16 f.oper
  | 5 => .b48 f.sha
  | 6 => .b32 f.spa
  | 7 => .b48 f.tha
  | _ => .b32 f.tpa

/-- The frame with field `k` given a new value; `none` where the value is not of the field's width. -/
def withField (f : Frame) (k : Fin 9) (v : HostValue) : Option Frame :=
  match k.val, v with
  | 0, .b16 v => some { f with htype := v }
  | 1, .b16 v => some { f with ptype := v }
  | 2, .b8 v => some { f with hlen := v }
  | 3, .b8 v => some { f with plen := v }
  | 4, .b16 v => some { f with oper := v }
  | 5, .b48 v => some { f with sha := v }
  | 6, .b32 v => some { f with spa := v }
  | 7, .b48 v => some { f with tha := v }
  | 8, .b32 v => some { f with tpa := v }
  | _, _ => none

/-- The value a host read gives: `ST` as 32 bits with bits 31:4 zero (R27), everything else at its own width (R31). -/
def readTarget (s : State) : HostTarget → HostValue
  | .x r => .b32 (s.getX r)
  | .n r => .b32 (s.getN r)
  | .h r => .b48 (s.getH r)
  | .st => .b32 (s.st.bits.setWidth 32)
  | .f k => fieldValue s.f k
  | .wb o => .b8 (s.byte o.val)

/-- The state after a host write; `none` where the value is not of the state's width (R195 (c)). `ST` is read-only: no
effect (R31). A write has no side effect and does not touch `ST`. -/
def writeTarget (s : State) (t : HostTarget) (v : HostValue) : Option State :=
  match t, v with
  | .x r, .b32 v => some (s.setX r v)
  | .n r, .b32 v => some (s.setN r v)
  | .h r, .b48 v => some (s.setH r v)
  | .st, .b32 _ => some s
  | .f k, v => (withField s.f k v).map s.setF
  | .wb o, .b8 v => some (s.memWrite o.val [v])
  | _, _ => none

/-- The host gets nothing from a move. -/
def State.answerNothing (s : State) : State := { s with answer := .nothing }

/-- The move `Reset` (R194, R200): all state of the block takes its reset value. The moves still to come are the
host's and stay (log entry 1). -/
def hostReset (s : State) : StepResult := .next { State.reset with pending := s.pending }

/-- The move `Issue(W)` (R192): decode; an illegal word raises `ILLEGAL_CMD` before any operand is read (R184, R185);
otherwise the rule of the command. -/
def issue (w : CmdWord) (s : State) : StepResult :=
  match decode w with
  | .error _ => raise .illegalCmd s
  | .ok i => exec i s

/-- The move `HostRead(sel)` (R194): no effect; no value where the selector is not assigned (R31). -/
def hostRead (sel : BitVec 8) (s : State) : StepResult :=
  match selectorTarget sel with
  | none => .next s.answerNothing
  | some t => .next { s with answer := .value (readTarget s t) }

/-- The move `HostWrite(sel, v)` (R194): no effect where the selector is not assigned (R31); a value that is not of the
state's width is refused (R195 (c), log entry 8). -/
def hostWrite (sel : BitVec 8) (v : HostValue) (s : State) : StepResult :=
  match selectorTarget sel with
  | none => .next s.answerNothing
  | some t =>
    match writeTarget s t v with
    | none => .refused .illTypedHostWrite
    | some s' => .next s'.answerNothing

/-- One move of the host (R194). -/
def performMove (m : HostMove) (s : State) : StepResult :=
  match m with
  | .reset => hostReset s
  | .issue w => issue w s
  | .hostRead sel => hostRead sel s
  | .hostWrite sel v => hostWrite sel v s

end Sys2Proof.Machine
end

