-- ==== Sys2Proof/Machine/Step.lean ====
section
/-! DEFINITION. The step: the host's next move is performed (60_exceptions.md R192, R194). With no move left the block
is idle and keeps all state (R196, R198). -/

namespace Sys2Proof.Machine

/-- One step of the machine: the first pending move, or nothing (log entries 1 and 2). -/
def step (s : State) : Host.Outcome State Fault Refusal :=
  match s.pending with
  | [] => .next s
  | m :: rest => performMove m { s with pending := rest }

/-- The state in which the host's next move is to issue the word `w` of `nbits` bits. There is no fetch: the command
word comes from the host's command port (R28, R50), so this is where the next command stands (log entry 1). -/
def State.withFetchWord (s : State) (nbits w : Nat) : State :=
  { s with pending := .issue (tableWord nbits w) :: s.pending }

end Sys2Proof.Machine
end

