-- ==== Sys2Proof/Machine/TextForms.lean ====
section
/-! DEFINITION. The text forms of the address types (44_text_reference.md R170 to R177): pure reference functions beside
the machine, which no command computes and which touch no state. A string is a list of characters (log entry 13). -/

namespace Sys2Proof.Machine

/-- The error of a failed parse. It is no completion code (R170, R182). -/
inductive TextError where
  | invalidFormat
deriving DecidableEq, Repr

/-- A decimal or lower-case hexadecimal digit, for `k < 16`. -/
def digitChar (k : Nat) : Char := if k < 10 then Char.ofNat (48 + k) else Char.ofNat (87 + k)

/-- The value of a decimal digit. -/
def decDigit (c : Char) : Option Nat :=
  if 48 ≤ c.toNat ∧ c.toNat ≤ 57 then some (c.toNat - 48) else none

/-- The value of a hexadecimal digit; `A` to `F` when `upperOk` (R176, HEX_UPPER_OK of R6). -/
def hexDigit (upperOk : Bool) (c : Char) : Option Nat :=
  if 48 ≤ c.toNat ∧ c.toNat ≤ 57 then some (c.toNat - 48)
  else if 97 ≤ c.toNat ∧ c.toNat ≤ 102 then some (c.toNat - 87)
  else if upperOk ∧ 65 ≤ c.toNat ∧ c.toNat ≤ 70 then some (c.toNat - 55)
  else none

/-- Splits at every `sep`: a string with `k` separators gives `k + 1` parts, some possibly empty (R176). -/
def splitAtChar (sep : Char) : List Char → List (List Char)
  | [] => [[]]
  | c :: cs =>
    if c = sep then [] :: splitAtChar sep cs
    else
      match splitAtChar sep cs with
      | [] => [[c]]
      | p :: ps => (c :: p) :: ps

/-- Joins parts with single `sep` characters. -/
def joinWith (sep : Char) : List (List Char) → List Char
  | [] => []
  | [p] => p
  | p :: q :: ps => p ++ sep :: joinWith sep (q :: ps)

/-! ### NetworkAddress: dotted-quad -/

/-- An octet in decimal with the fewest digits (R171). -/
def octetText (b : Byte) : List Char :=
  let k := b.toNat
  if k < 10 then [digitChar k]
  else if k < 100 then [digitChar (k / 10), digitChar (k % 10)]
  else [digitChar (k / 100), digitChar (k / 10 % 10), digitChar (k % 10)]

/-- `na_to_text` (R171): four octets, the first octet first. -/
def naToText (v : NetAddr) : List Char :=
  joinWith '.' [octetText (v.extractLsb' 24 8), octetText (v.extractLsb' 16 8), octetText (v.extractLsb' 8 8),
    octetText (v.extractLsb' 0 8)]

/-- The decimal value of a string of digits, `none` where a character is no digit. -/
def decValue (acc : Nat) : List Char → Option Nat
  | [] => some acc
  | c :: cs =>
    match decDigit c with
    | some k => decValue (10 * acc + k) cs
    | none => none

/-- A part of a dotted quad: 1 to 3 decimal digits, at most 255, read in decimal; without a leading zero on more than
one digit unless `zeroOk` (R172). -/
def octetValue (zeroOk : Bool) (p : List Char) : Option Byte :=
  if p.length = 0 ∨ 3 < p.length then none
  else if ¬ zeroOk ∧ 1 < p.length ∧ p.head? = some '0' then none
  else
    match decValue 0 p with
    | some k => if k ≤ 255 then some (BitVec.ofNat 8 k) else none
    | none => none

/-- `na_from_text` for a given value of `LEADING_ZERO_OK` (R172). -/
def naFromTextWith (zeroOk : Bool) (s : List Char) : Except TextError NetAddr :=
  match splitAtChar '.' s with
  | [p, q, r, t] =>
    match octetValue zeroOk p, octetValue zeroOk q, octetValue zeroOk r, octetValue zeroOk t with
    | some a, some b, some c, some d => .ok (frombe 32 [a, b, c, d])
    | _, _, _, _ => .error .invalidFormat
  | _ => .error .invalidFormat

/-- `na_from_text` (R172). -/
def naFromText (s : List Char) : Except TextError NetAddr := naFromTextWith Config.leadingZeroOk s

/-! ### HardwareAddress: colon-separated hex -/

/-- A byte as exactly two lower-case hexadecimal digits (R175). -/
def byteText (b : Byte) : List Char := [digitChar (b.toNat / 16), digitChar (b.toNat % 16)]

/-- `ha_to_text` (R175): byte 0 first. -/
def haToText (h : HwAddr) : List Char :=
  joinWith ':' [byteText (h.extractLsb' 40 8), byteText (h.extractLsb' 32 8), byteText (h.extractLsb' 24 8),
    byteText (h.extractLsb' 16 8), byteText (h.extractLsb' 8 8), byteText (h.extractLsb' 0 8)]

/-- A token of one or two hexadecimal digits (R176). -/
def tokenValue (p : List Char) : Option Byte :=
  match p with
  | [a] => (hexDigit Config.hexUpperOk a).map (fun x => BitVec.ofNat 8 x)
  | [a, b] =>
    match hexDigit Config.hexUpperOk a, hexDigit Config.hexUpperOk b with
    | some x, some y => some (BitVec.ofNat 8 (16 * x + y))
    | _, _ => none
  | _ => none

/-- `ha_from_text` (R176): exactly six tokens. -/
def haFromText (s : List Char) : Except TextError HwAddr :=
  match (splitAtChar ':' s).map tokenValue with
  | [some a, some b, some c, some d, some e, some f] => .ok (frombe 48 [a, b, c, d, e, f])
  | _ => .error .invalidFormat

end Sys2Proof.Machine
end

