-- ==== Sys2Proof/Machine/Assembler.lean ====
section
/-! DEFINITION. The assembler's side of the command set (30_encoding.md R70, R71): the text of a command and the
expansions of the three pseudo-instructions. The decoder never sees a pseudo-instruction, and no step calls this file. -/

namespace Sys2Proof.Machine

/-- A register in lower case: the letter of its file and its index (R70). -/
def regText {n : Nat} (file : Char) (r : Fin n) : List Char := [file, digitChar r.val]

/-- A number in decimal; R70 takes hexadecimal too (log entry 16). -/
def decText (k : Nat) : List Char := Nat.toDigits 10 k

/-- The operands separated by a comma and a space. -/
def operandText : List (List Char) → List Char
  | [] => []
  | [p] => p
  | p :: q :: ps => p ++ ',' :: ' ' :: operandText (q :: ps)

/-- A line: the mnemonic, a space, the operands. -/
def line (mnemonic : String) (ops : List (List Char)) : List Char :=
  match ops with
  | [] => mnemonic.toList
  | _ :: _ => mnemonic.toList ++ ' ' :: operandText ops

/-- The assembly form of a command (R70, in R62's order of operands). -/
def assemblyText : Instr → List Char
  | .xli d imm => line "XLI" [regText 'x' d, decText imm.toNat]
  | .xlih d imm => line "XLIH" [regText 'x' d, decText imm.toNat]
  | .xmov d a => line "XMOV" [regText 'x' d, regText 'x' a]
  | .ldb r off => line "LDB" [regText 'x' r, decText off.toNat]
  | .stb r off => line "STB" [regText 'x' r, decText off.toNat]
  | .nmov d a => line "NMOV" [regText 'n' d, regText 'n' a]
  | .nfromx d a => line "NFROMX" [regText 'n' d, regText 'x' a]
  | .ntox d a => line "NTOX" [regText 'x' d, regText 'n' a]
  | .nld r off => line "NLD" [regText 'n' r, decText off.toNat]
  | .nst r off => line "NST" [regText 'n' r, decText off.toNat]
  | .nnot d a => line "NNOT" [regText 'n' d, regText 'n' a]
  | .nand d a b => line "NAND" [regText 'n' d, regText 'n' a, regText 'n' b]
  | .nor d a b => line "NOR" [regText 'n' d, regText 'n' a, regText 'n' b]
  | .nxor d a b => line "NXOR" [regText 'n' d, regText 'n' a, regText 'n' b]
  | .nadd d a b => line "NADD" [regText 'n' d, regText 'n' a, regText 'x' b]
  | .nsub d a b => line "NSUB" [regText 'n' d, regText 'n' a, regText 'x' b]
  | .ninc d => line "NINC" [regText 'n' d]
  | .ndec d => line "NDEC" [regText 'n' d]
  | .nincp d a => line "NINCP" [regText 'n' d, regText 'n' a]
  | .ndecp d a => line "NDECP" [regText 'n' d, regText 'n' a]
  | .neq d a b => line "NEQ" [regText 'x' d, regText 'n' a, regText 'n' b]
  | .nlt d a b => line "NLT" [regText 'x' d, regText 'n' a, regText 'n' b]
  | .nismask d a => line "NISMASK" [regText 'x' d, regText 'n' a]
  | .nnet d a b => line "NNET" [regText 'n' d, regText 'n' a, regText 'n' b]
  | .nbcast d a b => line "NBCAST" [regText 'n' d, regText 'n' a, regText 'n' b]
  | .hmov d a => line "HMOV" [regText 'h' d, regText 'h' a]
  | .hld r off => line "HLD" [regText 'h' r, decText off.toNat]
  | .hldl r off cnt => line "HLDL" [regText 'h' r, decText off.toNat, decText cnt.toNat]
  | .hst r off => line "HST" [regText 'h' r, decText off.toNat]
  | .heq d a b => line "HEQ" [regText 'x' d, regText 'h' a, regText 'h' b]
  | .hne d a b => line "HNE" [regText 'x' d, regText 'h' a, regText 'h' b]
  | .hisnull d a => line "HISNULL" [regText 'x' d, regText 'h' a]
  | .hsetbc d => line "HSETBC" [regText 'h' d]
  | .finit => line "FINIT" []
  | .fenc => line "FENC" []
  | .fdec => line "FDEC" []
  | .fshtype a => line "FSHTYPE" [regText 'x' a]
  | .fsptype a => line "FSPTYPE" [regText 'x' a]
  | .fshlen a => line "FSHLEN" [regText 'x' a]
  | .fsplen a => line "FSPLEN" [regText 'x' a]
  | .fsoper a => line "FSOPER" [regText 'x' a]
  | .fssha a => line "FSSHA" [regText 'h' a]
  | .fsspa a => line "FSSPA" [regText 'n' a]
  | .fstha a => line "FSTHA" [regText 'h' a]
  | .fstpa a => line "FSTPA" [regText 'n' a]
  | .fghtype d => line "FGHTYPE" [regText 'x' d]
  | .fgptype d => line "FGPTYPE" [regText 'x' d]
  | .fghlen d => line "FGHLEN" [regText 'x' d]
  | .fgplen d => line "FGPLEN" [regText 'x' d]
  | .fgoper d => line "FGOPER" [regText 'x' d]
  | .fgsha d => line "FGSHA" [regText 'h' d]
  | .fgspa d => line "FGSPA" [regText 'n' d]
  | .fgtha d => line "FGTHA" [regText 'h' d]
  | .fgtpa d => line "FGTPA" [regText 'n' d]

/-- The pseudo-instructions of R71. -/
inductive Pseudo where
  /-- `NGT xd, na, nb`: is `N[a]` after `N[b]` in the ordering. -/
  | ngt (d : XReg) (a b : NReg)
  /-- `XLI32 xd, imm32`: load a 32-bit constant. -/
  | xli32 (d : XReg) (imm : BitVec 32)
  /-- `NLI nd, xt, a.b.c.d`: load an address, `X[t]` overwritten. -/
  | nli (d : NReg) (t : XReg) (v : NetAddr)
deriving DecidableEq, Repr

/-- The commands a pseudo-instruction stands for (R71). -/
def expandPseudo : Pseudo → List Instr
  | .ngt d a b => [.nlt d b a]
  | .xli32 d imm => [.xli d (imm.extractLsb' 0 16), .xlih d (imm.extractLsb' 16 16)]
  | .nli d t v => [.xli t (v.extractLsb' 0 16), .xlih t (v.extractLsb' 16 16), .nfromx d t]

end Sys2Proof.Machine
end

