-- ==== Sys2Proof/Safety.lean ====
section
/-! DEFINITION. The terms statements are made in: what a step keeps, and the invariant of the machine. The block's
promise is that every command completes and that a failing one changes nothing but `ST` (60_exceptions.md R183,
R192). -/

namespace Sys2Proof.Safety

open Sys2Proof.Machine

/-- Every X register keeps its value. -/
def KeepsX (s t : State) : Prop := ∀ r, t.getX r = s.getX r

/-- Every N register keeps its value. -/
def KeepsN (s t : State) : Prop := ∀ r, t.getN r = s.getN r

/-- Every H register keeps its value. -/
def KeepsH (s t : State) : Prop := ∀ r, t.getH r = s.getH r

/-- Every frame field register keeps its value. -/
def KeepsF (s t : State) : Prop := t.f = s.f

/-- Every byte of the wire buffer reads as before. -/
def KeepsWB (s t : State) : Prop := ∀ o, t.byte o = s.byte o

/-- Nothing of the block but `X[d]` and `ST` changes. -/
def OnlyX (d : XReg) (s t : State) : Prop :=
  (∀ r, r ≠ d → t.getX r = s.getX r) ∧ KeepsN s t ∧ KeepsH s t ∧ KeepsF s t ∧ KeepsWB s t

/-- Nothing of the block but `N[d]` and `ST` changes. -/
def OnlyN (d : NReg) (s t : State) : Prop :=
  (∀ r, r ≠ d → t.getN r = s.getN r) ∧ KeepsX s t ∧ KeepsH s t ∧ KeepsF s t ∧ KeepsWB s t

/-- Nothing of the block but `H[d]` and `ST` changes. -/
def OnlyH (d : HReg) (s t : State) : Prop :=
  (∀ r, r ≠ d → t.getH r = s.getH r) ∧ KeepsX s t ∧ KeepsN s t ∧ KeepsF s t ∧ KeepsWB s t

/-- Nothing of the block but the `n` bytes of `WB` at `off`, and `ST`, changes. -/
def OnlyWB (off n : Nat) (s t : State) : Prop :=
  (∀ o, ¬ (off ≤ o ∧ o < off + n) → t.byte o = s.byte o) ∧ KeepsX s t ∧ KeepsN s t ∧ KeepsH s t ∧ KeepsF s t

/-- Nothing of the block but the frame field registers and `ST` changes. -/
def OnlyF (s t : State) : Prop := KeepsX s t ∧ KeepsN s t ∧ KeepsH s t ∧ KeepsWB s t

/-- Nothing of the block but `ST` changes (R183). -/
def OnlyST (s t : State) : Prop := KeepsX s t ∧ KeepsN s t ∧ KeepsH s t ∧ KeepsF s t ∧ KeepsWB s t

/-- The commands that write frame field registers: FINIT, FDEC and the nine setters (R25). -/
def WritesF (i : Instr) : Prop := i.cmd = 0x40 ∨ i.cmd = 0x42 ∨ (0x50 ≤ i.cmd.toNat ∧ i.cmd.toNat ≤ 0x58)

/-- The commands that write the wire buffer: STB, NST, HST and FENC (R26). -/
def WritesWB (i : Instr) : Prop := i.cmd = 0x05 ∨ i.cmd = 0x14 ∨ i.cmd = 0x33 ∨ i.cmd = 0x41

/-- The width of a value on the host port. -/
def valueWidth : HostValue → Nat
  | .b8 _ => 8
  | .b16 _ => 16
  | .b32 _ => 32
  | .b48 _ => 48

/-- The invariant of the machine: the wire buffer is in canonical form and lists no offset outside its 28 bytes. -/
def Inv (s : State) : Prop := s.wb.wf

/-- A run is safe while no step stops: the machine answers a next state. -/
def Proceeds (s : State) : Prop := ∃ t, step s = .next t

end Sys2Proof.Safety
end

