-- ==== Sys2Proof/Certificates/Slice0/Obligations.lean ====
section
/-! DEFINITION. The statements for the provers, from the numbered rules of spec/. OBLIGATIONS.json lists them in this
order with the rules they cite. `OnlyX`, `OnlyN`, `OnlyH`, `OnlyWB`, `OnlyF` and `OnlyST` of Sys2Proof/Safety.lean are
the frames: what a command leaves unchanged. -/

open Sys2Proof Sys2Proof.Machine Sys2Proof.Safety

/-- In State.reset every X, N and H register is 0, F is the default frame (htype 1, ptype 0x0800, hlen 6, plen 4, oper 1,
the four addresses 0), every byte of WB is 0 and ST.code is OK; WB does not hold the encoding of the default frame.
(R33) -/
def Obligations.ResetGivesTheTableOfValues : Prop :=
  (∀ r, State.reset.getX r = 0) ∧ (∀ r, State.reset.getN r = 0) ∧ (∀ r, State.reset.getH r = 0) ∧
  State.reset.f.htype = 1 ∧ State.reset.f.ptype = 0x0800 ∧ State.reset.f.hlen = 6 ∧ State.reset.f.plen = 4 ∧
  State.reset.f.oper = 1 ∧ State.reset.f.sha = 0 ∧ State.reset.f.spa = 0 ∧ State.reset.f.tha = 0 ∧
  State.reset.f.tpa = 0 ∧ (∀ o, o < 28 → State.reset.byte o = 0) ∧ State.reset.st = .ok ∧
  State.reset.memRead 0 28 ≠ encodeFrame State.reset.f

/-- From every state the move Reset answers a next state whose X, N, H, F, WB and ST are those of State.reset; that the
moves still to come are kept and that the host gets nothing are the model's own (log entries 1 and 3).
(70_reset_and_hazards.md R200, 10_state.md R33) -/
def Obligations.ResetMoveFromAnyState : Prop :=
  ∀ s : State, ∃ t, performMove .reset s = .next t ∧ t.x = State.reset.x ∧ t.n = State.reset.n ∧
    t.h = State.reset.h ∧ t.f = State.reset.f ∧ t.wb = State.reset.wb ∧ t.st = .ok ∧ t.answer = .nothing ∧
    t.pending = s.pending

/-- FENC at State.reset completes with OK and WB holds 00 01 08 00 06 04 00 01 and twenty 00 bytes; FDEC at State.reset
completes with OK and every field of F is 0. (70_reset_and_hazards.md R202, 70_reset_and_hazards.md R201) -/
def Obligations.FirstCommandsAfterReset : Prop :=
  (∃ t, exec .fenc State.reset = .next t ∧ t.st = .ok ∧
      t.memRead 0 28 = [0x00, 0x01, 0x08, 0x00, 0x06, 0x04, 0x00, 0x01] ++ List.replicate 20 0x00) ∧
  (∃ t, exec .fdec State.reset = .next t ∧ t.st = .ok ∧
      t.f = { htype := 0, ptype := 0, hlen := 0, plen := 0, oper := 0, sha := 0, spa := 0, tha := 0, tpa := 0 })

/-- Six words taken from the spec's vectors, one of each format, with and without a count, decode to the command written
beside them there. (30_encoding.md R62, 95_test_vectors.md section 2) -/
def Obligations.DecodedSampleWords : Prop :=
  decode 0x0210C0A8 = .ok (.xlih 1 0xC0A8) ∧ decode 0x1320000E = .ok (.nld 2 14) ∧
  decode 0x20201000 = .ok (.nadd 2 0 1) ∧ decode 0x32200902 = .ok (.hldl 2 2 9) ∧
  decode 0x55000000 = .ok (.fssha 0) ∧ decode 0x68300000 = .ok (.fgtpa 3)

/-- For every one of the 54 commands and every value of its operands that R58 admits, decode (encode i) is i.
(30_encoding.md R56, 30_encoding.md R57, 30_encoding.md R58, 30_encoding.md R62, 30_encoding.md R63) -/
def Obligations.DecodeOfEncodeIsTheCommand : Prop :=
  ∀ i : Instr, i.wf = true → decode (encode i) = .ok i

/-- If a 32-bit word decodes to a command, the command is well-formed and the word is its encoding: no other word, with a
must-be-zero bit set or an index or offset out of range, decodes. (30_encoding.md R59, 30_encoding.md R63,
30_encoding.md R66) -/
def Obligations.DecodeAcceptsOnlyEncodings : Prop :=
  ∀ (w : CmdWord) (i : Instr), decode w = .ok i → i.wf = true ∧ encode i = w

/-- For every row of the table of R62 and every 32-bit word: the decoder answers a command with the row's cmd if and only
if (W & mask) == match and the offset condition of R58 holds. (30_encoding.md R62, 30_encoding.md R58) -/
def Obligations.DecodeAgreesWithMatchAndMask : Prop :=
  ∀ row ∈ opcodeRows, ∀ w : CmdWord,
    (∃ i, decode w = .ok i ∧ i.cmd = row.cmd) ↔ (w &&& row.mask = row.pattern ∧ row.rule.holds w = true)

/-- A word is refused by the decoder if and only if no row of R62 has its cmd, or the row with its cmd has (W & mask) !=
match or a failing offset condition. (30_encoding.md R63, 30_encoding.md R66) -/
def Obligations.IllegalWordsAreExactlyTheUnmatched : Prop :=
  ∀ w : CmdWord, (∃ e, decode w = .error e) ↔
    ((∀ row ∈ opcodeRows, row.cmd ≠ cmdField w) ∨
      ∃ row ∈ opcodeRows, row.cmd = cmdField w ∧ (w &&& row.mask ≠ row.pattern ∨ row.rule.holds w = false))

/-- In every state whose first pending move is m (Reset, Issue, HostRead or HostWrite, any word, selector or value), the
step is that move performed on the state without it. If m is Issue(W) and W decodes to i, the step is exec i on that
state; and the step of a state with a word placed by withFetchWord is exec i on that state. That the moves stand in a
list is the model's own (log entry 1). (60_exceptions.md R192, 60_exceptions.md R194) -/
def Obligations.StepRunsTheDecodedCommand : Prop :=
  (∀ (s : State) (m : HostMove) (rest : List HostMove), s.pending = m :: rest →
      step s = performMove m { s with pending := rest } ∧
      (m = .reset → step s = hostReset { s with pending := rest }) ∧
      (∀ w, m = .issue w → step s = issue w { s with pending := rest }) ∧
      (∀ sel, m = .hostRead sel → step s = hostRead sel { s with pending := rest }) ∧
      (∀ sel v, m = .hostWrite sel v → step s = hostWrite sel v { s with pending := rest })) ∧
  (∀ (s : State) (w : CmdWord) (i : Instr), decode w = .ok i →
    (∀ rest, s.pending = .issue w :: rest → step s = exec i { s with pending := rest }) ∧
      step (s.withFetchWord 32 w.toNat) = exec i s)

/-- Issuing a word the decoder refuses answers a next state with ST.code = ILLEGAL_CMD and no register, field or byte
changed, in every state, and a word issued next is decoded as ever. (R184) -/
def Obligations.IllegalWordOnlySetsStatus : Prop :=
  ∀ (s : State) (w : CmdWord) (e : Illegal), decode w = .error e →
    ∃ t, issue w s = .next t ∧ t.st = .illegalCmd ∧ OnlyST s t ∧
      ∀ (w' : CmdWord) (i : Instr), decode w' = .ok i → issue w' t = exec i t

/-- From every state, reachable or not, the step answers a next state, or its move is a HostWrite to an assigned selector
of a value whose width is not that of the value a read gives, and the step is refused as ill-typed (R195 (c), log
entry 8). No step ever faults. That the idle step proceeds is log entry 2, that a move at an unassigned selector
proceeds log entry 9. (60_exceptions.md R192, 60_exceptions.md R184, 60_exceptions.md R195, 10_state.md R31) -/
def Obligations.EveryStepProceeds : Prop :=
  ∀ s : State, (∃ t, step s = .next t) ∨
    ∃ sel v rest tgt, s.pending = .hostWrite sel v :: rest ∧ selectorTarget sel = some tgt ∧
      valueWidth v ≠ valueWidth (readTarget s tgt) ∧ step s = .refused .illTypedHostWrite

/-- exec of a well-formed command answers a next state in every state; exec of a term whose offset breaks R58, to which no
word decodes, is the model's fault outsideWireBuffer (log entry 7). (60_exceptions.md R192, 20_memory.md R45) -/
def Obligations.CommandsCompleteExactlyWhenWellFormed : Prop :=
  ∀ (i : Instr) (s : State), (i.wf = true → ∃ t, exec i s = .next t) ∧
    (i.wf = false → exec i s = .fault .outsideWireBuffer)

/-- Whenever issuing a word, or exec of a command, answers a next state, the host's answer is the code written to ST.code
(R193); for a word the decoder refuses it answers one, with the code ILLEGAL_CMD. That the answer stands in State is
log entry 3; the list of moves still to come, the model's own field (log entry 1), is unchanged. (60_exceptions.md
R193, 60_exceptions.md R184, 30_encoding.md R66) -/
def Obligations.ResponseCarriesTheCode : Prop :=
  (∀ (w : CmdWord) (s t : State), issue w s = .next t → t.answer = .code t.st ∧ t.pending = s.pending) ∧
  (∀ (i : Instr) (s t : State), exec i s = .next t → t.answer = .code t.st ∧ t.pending = s.pending) ∧
  (∀ (w : CmdWord) (e : Illegal) (s : State), decode w = .error e →
    ∃ t, issue w s = .next t ∧ t.answer = .code .illegalCmd ∧ t.st = .illegalCmd ∧ t.pending = s.pending)

/-- A step of a state with no pending move answers that same state (the model's reading of the end of a run, log entry 2).
(60_exceptions.md R196, 60_exceptions.md R198) -/
def Obligations.IdleBlockKeepsAllState : Prop :=
  ∀ s : State, s.pending = [] → step s = .next s

/-- Selectors 0x00 to 0x07, 0x10 to 0x17 and 0x20 to 0x23 give X, N and H registers, 0x30 gives ST with bits 31:4 zero,
0x40 to 0x48 the nine fields, 0x80 to 0x9B the bytes of WB, and any other selector gives nothing. The block is
unchanged. That the host's answer stands in State is the model's own (log entry 3). (10_state.md R31, 10_state.md R27,
60_exceptions.md R194) -/
def Obligations.HostReadGivesTheNamedState : Prop :=
  ∀ s : State,
    (∀ r : XReg, hostRead (BitVec.ofNat 8 r.val) s = .next { s with answer := .value (.b32 (s.getX r)) }) ∧
    (∀ r : NReg, hostRead (BitVec.ofNat 8 (0x10 + r.val)) s = .next { s with answer := .value (.b32 (s.getN r)) }) ∧
    (∀ r : HReg, hostRead (BitVec.ofNat 8 (0x20 + r.val)) s = .next { s with answer := .value (.b48 (s.getH r)) }) ∧
    (∃ c : Nat, hostRead 0x30 s = .next { s with answer := .value (.b32 (BitVec.ofNat 32 c)) } ∧
      (s.st = .ok → c = 0) ∧ (s.st = .overflow → c = 1) ∧ (s.st = .underflow → c = 2) ∧ (s.st = .shortList → c = 3) ∧
      (s.st = .illegalCmd → c = 4)) ∧
    hostRead 0x40 s = .next { s with answer := .value (.b16 s.f.htype) } ∧
    hostRead 0x41 s = .next { s with answer := .value (.b16 s.f.ptype) } ∧
    hostRead 0x42 s = .next { s with answer := .value (.b8 s.f.hlen) } ∧
    hostRead 0x43 s = .next { s with answer := .value (.b8 s.f.plen) } ∧
    hostRead 0x44 s = .next { s with answer := .value (.b16 s.f.oper) } ∧
    hostRead 0x45 s = .next { s with answer := .value (.b48 s.f.sha) } ∧
    hostRead 0x46 s = .next { s with answer := .value (.b32 s.f.spa) } ∧
    hostRead 0x47 s = .next { s with answer := .value (.b48 s.f.tha) } ∧
    hostRead 0x48 s = .next { s with answer := .value (.b32 s.f.tpa) } ∧
    (∀ o, o < 28 → hostRead (BitVec.ofNat 8 (0x80 + o)) s = .next { s with answer := .value (.b8 (s.byte o)) }) ∧
    (∀ sel : BitVec 8, selectorTarget sel = none → hostRead sel s = .next { s with answer := .nothing })

/-- A selector is assigned if and only if it lies in 0x00..0x07, 0x10..0x17, 0x20..0x23, 0x40..0x48, 0x80..0x9B or is
0x30. (10_state.md R31) -/
def Obligations.AssignedSelectors : Prop :=
  ∀ sel : BitVec 8, (selectorTarget sel).isSome = true ↔
    (sel.toNat ≤ 0x07 ∨ (0x10 ≤ sel.toNat ∧ sel.toNat ≤ 0x17) ∨ (0x20 ≤ sel.toNat ∧ sel.toNat ≤ 0x23) ∨
      sel.toNat = 0x30 ∨ (0x40 ≤ sel.toNat ∧ sel.toNat ≤ 0x48) ∨ (0x80 ≤ sel.toNat ∧ sel.toNat ≤ 0x9B))

/-- If a HostWrite to an assigned selector other than ST answers a next state, a HostRead of the same selector there
answers the value written, and the write left ST.code as it was. (10_state.md R31, 20_memory.md R48) -/
def Obligations.HostWriteThenReadGivesTheValue : Prop :=
  ∀ (sel : BitVec 8) (v : HostValue) (s t : State), (selectorTarget sel).isSome = true → sel ≠ 0x30 →
    hostWrite sel v s = .next t → t.st = s.st ∧ hostRead sel t = .next { t with answer := .value v }

/-- After a HostWrite that answers a next state, a HostRead of every other selector answers what it answered before; a
write to ST or to an unassigned selector changes nothing of the block. The host gets nothing (R194); that this stands
in State.answer and that the moves to come are kept is the model's own (log entries 3 and 1). (10_state.md R31,
60_exceptions.md R194) -/
def Obligations.HostWriteChangesOnlyItsTarget : Prop :=
  ∀ (sel : BitVec 8) (v : HostValue) (s t : State), hostWrite sel v s = .next t →
    (∀ sel' tgt, sel' ≠ sel → selectorTarget sel' = some tgt → readTarget t tgt = readTarget s tgt) ∧
      ((sel = 0x30 ∨ selectorTarget sel = none) → OnlyST s t ∧ t.st = s.st) ∧
      t.answer = .nothing ∧ t.pending = s.pending

/-- For an assigned selector, HostWrite is refused if and only if the value's width differs from the width of the value a
read gives, and otherwise answers a next state. Refusing a narrower value, and an ill-typed write of ST, is the
model's choice (log entry 8). (60_exceptions.md R195, 60_exceptions.md R194) -/
def Obligations.HostWriteRefusedExactlyWhenIllTyped : Prop :=
  ∀ (sel : BitVec 8) (v : HostValue) (s : State) (tgt : HostTarget), selectorTarget sel = some tgt →
    (hostWrite sel v s = .refused .illTypedHostWrite ↔ valueWidth v ≠ valueWidth (readTarget s tgt)) ∧
      (valueWidth v = valueWidth (readTarget s tgt) → ∃ t, hostWrite sel v s = .next t)

/-- For every word and every state: if issuing the word answers a next state with ST.code other than OK, no X, N or H
register, no field of F and no byte of WB differs from before (and the buffer is the same data). (R183) -/
def Obligations.FailingCommandChangesOnlyStatus : Prop :=
  ∀ (w : CmdWord) (s t : State), issue w s = .next t → t.st ≠ .ok → OnlyST s t ∧ t.wb = s.wb

/-- When issuing a word answers a next state: ST.code is OVERFLOW if and only if the word is NADD, NSUB, NINC or NINCP
with an exact result above 0xFFFFFFFF, UNDERFLOW if and only if it is NADD, NSUB, NDEC or NDECP with an exact result
below 0, SHORT_LIST if and only if it is HLDL with cnt < 6, and ILLEGAL_CMD if and only if it is no legal command.
(R180) -/
def Obligations.ErrorCodesHaveExactlyTheirCauses : Prop :=
  ∀ (w : CmdWord) (s t : State), issue w s = .next t →
    (t.st = .overflow ↔
      (∃ d a b, decode w = .ok (.nadd d a b) ∧ ((s.getN a).toNat : Int) + (s.getX b).toInt > 0xFFFFFFFF) ∨
      (∃ d a b, decode w = .ok (.nsub d a b) ∧ ((s.getN a).toNat : Int) - (s.getX b).toInt > 0xFFFFFFFF) ∨
      (∃ d, decode w = .ok (.ninc d) ∧ ((s.getN d).toNat : Int) + 1 > 0xFFFFFFFF) ∨
      (∃ d a, decode w = .ok (.nincp d a) ∧ ((s.getN a).toNat : Int) + 1 > 0xFFFFFFFF)) ∧
    (t.st = .underflow ↔
      (∃ d a b, decode w = .ok (.nadd d a b) ∧ ((s.getN a).toNat : Int) + (s.getX b).toInt < 0) ∨
      (∃ d a b, decode w = .ok (.nsub d a b) ∧ ((s.getN a).toNat : Int) - (s.getX b).toInt < 0) ∨
      (∃ d, decode w = .ok (.ndec d) ∧ ((s.getN d).toNat : Int) - 1 < 0) ∨
      (∃ d a, decode w = .ok (.ndecp d a) ∧ ((s.getN a).toNat : Int) - 1 < 0)) ∧
    (t.st = .shortList ↔ ∃ r off cnt, decode w = .ok (.hldl r off cnt) ∧ cnt.toNat < 6) ∧
    (t.st = .illegalCmd ↔ ∃ e, decode w = .error e)

/-- A command other than FINIT, FDEC and the nine setters leaves F as it was; a command other than STB, NST, HST and FENC
leaves WB as it was. (10_state.md R25, 10_state.md R26, 70_reset_and_hazards.md R204) -/
def Obligations.OnlyNamedCommandsWriteFrameAndBuffer : Prop :=
  ∀ (i : Instr) (s t : State), exec i s = .next t →
    (¬ WritesF i → t.f = s.f) ∧ (¬ WritesWB i → t.wb = s.wb)

/-- State.reset's wire buffer is in the model's canonical form (log entry 6) and lists no offset outside 0..27.
(10_state.md R33, 20_memory.md R40) -/
def Obligations.ResetMeetsTheInvariant : Prop :=
  Safety.Inv State.reset

/-- From every state whose buffer is in canonical form with every listed offset below 28, a step that answers a next
state, whatever move it performs, leaves it so (the form is the model's, log entry 6). (20_memory.md R40, 20_memory.md
R45, 20_memory.md R47) -/
def Obligations.EveryStepKeepsTheInvariant : Prop :=
  ∀ s t : State, Safety.Inv s → step s = .next t → Safety.Inv t

/-- For every d, imm16, a and state: XLI gives X[d] = zext_32(imm16), XLIH gives X[d] the upper half imm16 and keeps bits
15:0, XMOV gives X[d] = X[a]; each completes with OK, each is the word of its format with its cmd, and no other
register, field or byte changes. (R161, R162, R163) -/
def Obligations.ScalarImmediatesAndCopy : Prop :=
  ∀ (d a : XReg) (imm : BitVec 16) (s : State),
    (decode (wordI 0x01 (nibble d) imm) = .ok (.xli d imm) ∧
      ∃ t, exec (.xli d imm) s = .next t ∧ t.getX d = imm.setWidth 32 ∧ t.st = .ok ∧ OnlyX d s t) ∧
    (decode (wordI 0x02 (nibble d) imm) = .ok (.xlih d imm) ∧
      ∃ t, exec (.xlih d imm) s = .next t ∧ (t.getX d).extractLsb' 16 16 = imm ∧
        (t.getX d).extractLsb' 0 16 = (s.getX d).extractLsb' 0 16 ∧ t.st = .ok ∧ OnlyX d s t) ∧
    (decode (wordR 0x03 (nibble d) (nibble a) 0) = .ok (.xmov d a) ∧
      ∃ t, exec (.xmov d a) s = .next t ∧ t.getX d = s.getX a ∧ t.st = .ok ∧ OnlyX d s t)

/-- For off <= 27 the word decodes to LDB, which completes with OK, X[r] = zext_32(WB[off]) and nothing else changed; for
off > 27 the word is illegal. (R164) -/
def Obligations.ByteLoadZeroExtends : Prop :=
  ∀ (r : XReg) (off : BitVec 5) (s : State),
    (off.toNat ≤ 27 → decode (wordM 0x04 (nibble r) 0 off) = .ok (.ldb r off) ∧
      ∃ t, exec (.ldb r off) s = .next t ∧ t.getX r = (s.byte off.toNat).setWidth 32 ∧ t.st = .ok ∧ OnlyX r s t) ∧
    (27 < off.toNat → decode (wordM 0x04 (nibble r) 0 off) = .error .offsetBound)

/-- For off <= 27 the word decodes to STB, which completes with OK, WB[off] = X[r][7:0], and no register, field or other
byte changed; for off > 27 the word is illegal. (R165) -/
def Obligations.ByteStoreTruncates : Prop :=
  ∀ (r : XReg) (off : BitVec 5) (s : State),
    (off.toNat ≤ 27 → decode (wordM 0x05 (nibble r) 0 off) = .ok (.stb r off) ∧
      ∃ t, exec (.stb r off) s = .next t ∧ t.byte off.toNat = (s.getX r).extractLsb' 0 8 ∧ t.st = .ok ∧
        OnlyWB off.toNat 1 s t) ∧
    (27 < off.toNat → decode (wordM 0x05 (nibble r) 0 off) = .error .offsetBound)

/-- For every index and state: NMOV gives N[d] = N[a], NFROMX gives N[d] = X[a], NTOX gives X[d] = N[a]; each completes
with OK, each is the format R word with its cmd, nothing else changes, and NTOX after NFROMX gives back the original
32 bits. (R81, R82, R83) -/
def Obligations.NetworkCopiesAndConversions : Prop :=
  ∀ (d a : Fin 8) (s : State),
    (decode (wordR 0x10 (nibble d) (nibble a) 0) = .ok (.nmov d a) ∧
      ∃ t, exec (.nmov d a) s = .next t ∧ t.getN d = s.getN a ∧ t.st = .ok ∧ OnlyN d s t) ∧
    (decode (wordR 0x11 (nibble d) (nibble a) 0) = .ok (.nfromx d a) ∧
      ∃ t, exec (.nfromx d a) s = .next t ∧ t.getN d = s.getX a ∧ t.st = .ok ∧ OnlyN d s t ∧
        ∀ e : XReg, ∃ u, exec (.ntox e d) t = .next u ∧ u.getX e = s.getX a) ∧
    (decode (wordR 0x12 (nibble d) (nibble a) 0) = .ok (.ntox d a) ∧
      ∃ t, exec (.ntox d a) s = .next t ∧ t.getX d = s.getN a ∧ t.st = .ok ∧ OnlyX d s t)

/-- For off <= 24 the word decodes to NLD, which completes with OK and gives N[r] = the bytes WB[off..off+3], WB[off] in
bits 31:24, with nothing else changed; for off > 24 the word is illegal. (R84) -/
def Obligations.NetworkLoadIsBigEndian : Prop :=
  ∀ (r : NReg) (off : BitVec 5) (s : State),
    (off.toNat ≤ 24 → decode (wordM 0x13 (nibble r) 0 off) = .ok (.nld r off) ∧
      ∃ t, exec (.nld r off) s = .next t ∧
        (∀ k, k < 4 → (t.getN r).extractLsb' (24 - 8 * k) 8 = s.byte (off.toNat + k)) ∧ t.st = .ok ∧ OnlyN r s t) ∧
    (24 < off.toNat → decode (wordM 0x13 (nibble r) 0 off) = .error .offsetBound)

/-- For off <= 24 the word decodes to NST, which completes with OK, gives WB[off+k] = N[r][31-8k:24-8k] for k = 0..3,
changes no other byte, register or field, and NLD of the same offset then returns the value; for off > 24 the word is
illegal. (R85) -/
def Obligations.NetworkStoreIsBigEndian : Prop :=
  ∀ (r : NReg) (off : BitVec 5) (s : State),
    (off.toNat ≤ 24 → decode (wordM 0x14 (nibble r) 0 off) = .ok (.nst r off) ∧
      ∃ t, exec (.nst r off) s = .next t ∧
        (∀ k, k < 4 → t.byte (off.toNat + k) = (s.getN r).extractLsb' (24 - 8 * k) 8) ∧ t.st = .ok ∧
        OnlyWB off.toNat 4 s t ∧ ∀ q : NReg, ∃ u, exec (.nld q off) t = .next u ∧ u.getN q = s.getN r) ∧
    (24 < off.toNat → decode (wordM 0x14 (nibble r) 0 off) = .error .offsetBound)

/-- For every index and state and each bit position k: NNOT complements N[a], NAND, NOR (inclusive OR) and NXOR combine
N[a] and N[b]; each completes with OK, is the format R word with its cmd, and changes nothing but N[d] and ST, also
when registers coincide. (R86, R87, R88, R89) -/
def Obligations.NetworkBitwiseOperations : Prop :=
  ∀ (d a b : NReg) (s : State),
    (decode (wordR 0x15 (nibble d) (nibble a) 0) = .ok (.nnot d a) ∧
      ∃ t, exec (.nnot d a) s = .next t ∧ (∀ k, k < 32 → (t.getN d).getLsbD k = !(s.getN a).getLsbD k) ∧
        t.st = .ok ∧ OnlyN d s t) ∧
    (decode (wordR 0x16 (nibble d) (nibble a) (nibble b)) = .ok (.nand d a b) ∧
      ∃ t, exec (.nand d a b) s = .next t ∧
        (∀ k, (t.getN d).getLsbD k = ((s.getN a).getLsbD k && (s.getN b).getLsbD k)) ∧ t.st = .ok ∧ OnlyN d s t) ∧
    (decode (wordR 0x17 (nibble d) (nibble a) (nibble b)) = .ok (.nor d a b) ∧
      ∃ t, exec (.nor d a b) s = .next t ∧
        (∀ k, (t.getN d).getLsbD k = ((s.getN a).getLsbD k || (s.getN b).getLsbD k)) ∧ t.st = .ok ∧ OnlyN d s t) ∧
    (decode (wordR 0x18 (nibble d) (nibble a) (nibble b)) = .ok (.nxor d a b) ∧
      ∃ t, exec (.nxor d a b) s = .next t ∧
        (∀ k, (t.getN d).getLsbD k = ((s.getN a).getLsbD k != (s.getN b).getLsbD k)) ∧ t.st = .ok ∧ OnlyN d s t)

/-- With r = uval(N[a]) + sval_32(X[b]) in unbounded integers: if 0 <= r <= 0xFFFFFFFF, NADD completes with OK, N[d] = r
and nothing else changed; if r > 0xFFFFFFFF it completes with OVERFLOW, if r < 0 with UNDERFLOW, and nothing but ST
changes. The word is format R with cmd = 0x20. (R91) -/
def Obligations.NetworkAddIsRangeChecked : Prop :=
  ∀ (d a : NReg) (b : XReg) (s : State),
    decode (wordR 0x20 (nibble d) (nibble a) (nibble b)) = .ok (.nadd d a b) ∧
    (0 ≤ ((s.getN a).toNat : Int) + (s.getX b).toInt ∧ ((s.getN a).toNat : Int) + (s.getX b).toInt ≤ 0xFFFFFFFF →
      ∃ t, exec (.nadd d a b) s = .next t ∧ ((t.getN d).toNat : Int) = (s.getN a).toNat + (s.getX b).toInt ∧
        t.st = .ok ∧ OnlyN d s t) ∧
    (((s.getN a).toNat : Int) + (s.getX b).toInt > 0xFFFFFFFF →
      ∃ t, exec (.nadd d a b) s = .next t ∧ t.st = .overflow ∧ OnlyST s t) ∧
    (((s.getN a).toNat : Int) + (s.getX b).toInt < 0 →
      ∃ t, exec (.nadd d a b) s = .next t ∧ t.st = .underflow ∧ OnlyST s t)

/-- With r = uval(N[a]) - sval_32(X[b]) in unbounded integers: if 0 <= r <= 0xFFFFFFFF, NSUB completes with OK, N[d] = r
and nothing else changed; if r > 0xFFFFFFFF it completes with OVERFLOW, if r < 0 with UNDERFLOW, and nothing but ST
changes. The word is format R with cmd = 0x21. (R92) -/
def Obligations.NetworkSubIsRangeChecked : Prop :=
  ∀ (d a : NReg) (b : XReg) (s : State),
    decode (wordR 0x21 (nibble d) (nibble a) (nibble b)) = .ok (.nsub d a b) ∧
    (0 ≤ ((s.getN a).toNat : Int) - (s.getX b).toInt ∧ ((s.getN a).toNat : Int) - (s.getX b).toInt ≤ 0xFFFFFFFF →
      ∃ t, exec (.nsub d a b) s = .next t ∧ ((t.getN d).toNat : Int) = (s.getN a).toNat - (s.getX b).toInt ∧
        t.st = .ok ∧ OnlyN d s t) ∧
    (((s.getN a).toNat : Int) - (s.getX b).toInt > 0xFFFFFFFF →
      ∃ t, exec (.nsub d a b) s = .next t ∧ t.st = .overflow ∧ OnlyST s t) ∧
    (((s.getN a).toNat : Int) - (s.getX b).toInt < 0 →
      ∃ t, exec (.nsub d a b) s = .next t ∧ t.st = .underflow ∧ OnlyST s t)

/-- NINC gives N[d] + 1 and OK unless N[d] = 0xFFFFFFFF, where it completes with OVERFLOW and nothing but ST changes; NDEC
gives N[d] - 1 and OK unless N[d] = 0, where it completes with UNDERFLOW and nothing but ST changes. Nothing but N[d]
and ST ever changes. (R93, R94) -/
def Obligations.NetworkIncrementAndDecrementInPlace : Prop :=
  ∀ (d : NReg) (s : State),
    (decode (wordR 0x22 (nibble d) 0 0) = .ok (.ninc d) ∧
      (s.getN d ≠ 0xFFFFFFFF → ∃ t, exec (.ninc d) s = .next t ∧ (t.getN d).toNat = (s.getN d).toNat + 1 ∧
        t.st = .ok ∧ OnlyN d s t) ∧
      (s.getN d = 0xFFFFFFFF → ∃ t, exec (.ninc d) s = .next t ∧ t.st = .overflow ∧ OnlyST s t)) ∧
    (decode (wordR 0x23 (nibble d) 0 0) = .ok (.ndec d) ∧
      (s.getN d ≠ 0 → ∃ t, exec (.ndec d) s = .next t ∧ (t.getN d).toNat + 1 = (s.getN d).toNat ∧
        t.st = .ok ∧ OnlyN d s t) ∧
      (s.getN d = 0 → ∃ t, exec (.ndec d) s = .next t ∧ t.st = .underflow ∧ OnlyST s t))

/-- Away from the bound NINCP completes with OK, N[d] = the old N[a] and, if d is not a, N[a] one more, nothing else
changed; so when d = a the register keeps its old value. NDECP likewise with one less. At the bound (0xFFFFFFFF, 0)
they complete with OVERFLOW, UNDERFLOW and nothing but ST changes. (R95, R96) -/
def Obligations.NetworkPostfixFormsGiveTheOldValue : Prop :=
  ∀ (d a : NReg) (s : State),
    (decode (wordR 0x24 (nibble d) (nibble a) 0) = .ok (.nincp d a) ∧
      (s.getN a ≠ 0xFFFFFFFF → ∃ t, exec (.nincp d a) s = .next t ∧ t.getN d = s.getN a ∧
        (d ≠ a → (t.getN a).toNat = (s.getN a).toNat + 1) ∧ t.st = .ok ∧
        (∀ r, r ≠ d → r ≠ a → t.getN r = s.getN r) ∧ KeepsX s t ∧ KeepsH s t ∧ KeepsF s t ∧ KeepsWB s t) ∧
      (s.getN a = 0xFFFFFFFF → ∃ t, exec (.nincp d a) s = .next t ∧ t.st = .overflow ∧ OnlyST s t)) ∧
    (decode (wordR 0x25 (nibble d) (nibble a) 0) = .ok (.ndecp d a) ∧
      (s.getN a ≠ 0 → ∃ t, exec (.ndecp d a) s = .next t ∧ t.getN d = s.getN a ∧
        (d ≠ a → (t.getN a).toNat + 1 = (s.getN a).toNat) ∧ t.st = .ok ∧
        (∀ r, r ≠ d → r ≠ a → t.getN r = s.getN r) ∧ KeepsX s t ∧ KeepsH s t ∧ KeepsF s t ∧ KeepsWB s t) ∧
      (s.getN a = 0 → ∃ t, exec (.ndecp d a) s = .next t ∧ t.st = .underflow ∧ OnlyST s t))

/-- NEQ completes with OK, X[d] = 1 if N[a] = N[b] and 0 otherwise, and nothing else changes; two values have equal
ordering keys under either value of RAW_LE exactly when they are equal. (R97) -/
def Obligations.NetworkEqualityTest : Prop :=
  ∀ (d : XReg) (a b : NReg) (s : State),
    decode (wordR 0x26 (nibble d) (nibble a) (nibble b)) = .ok (.neq d a b) ∧
    (∃ t, exec (.neq d a b) s = .next t ∧ (s.getN a = s.getN b → t.getX d = 1) ∧
      (s.getN a ≠ s.getN b → t.getX d = 0) ∧ t.st = .ok ∧ OnlyX d s t) ∧
    ∀ le : Bool, orderKey le (s.getN a) = orderKey le (s.getN b) ↔ s.getN a = s.getN b

/-- NLT completes with OK, X[d] = 1 if uval(key(N[a])) < uval(key(N[b])) with the key of RAW_LE, and 0 otherwise (so 0 for
equal values), and nothing else changes. It holds for either value of the open parameter. (R98) -/
def Obligations.NetworkOrderingTest : Prop :=
  ∀ (d : XReg) (a b : NReg) (s : State),
    decode (wordR 0x27 (nibble d) (nibble a) (nibble b)) = .ok (.nlt d a b) ∧
    ∃ t, exec (.nlt d a b) s = .next t ∧
      ((orderKey Config.rawLe (s.getN a)).toNat < (orderKey Config.rawLe (s.getN b)).toNat → t.getX d = 1) ∧
      (¬ (orderKey Config.rawLe (s.getN a)).toNat < (orderKey Config.rawLe (s.getN b)).toNat → t.getX d = 0) ∧
      (s.getN a = s.getN b → t.getX d = 0) ∧ t.st = .ok ∧ OnlyX d s t

/-- For both keys the order is irreflexive and transitive, and for v not equal to w exactly one of them is before the
other; with RAW_LE = false it is the numeric order, with RAW_LE = true that of the values whose byte k from the bottom
is byte k from the top. (R99) -/
def Obligations.OrderingIsAStrictTotalOrder : Prop :=
  (∀ (le : Bool) (u v w : NetAddr), isBefore le v v = false ∧
      (isBefore le u v = true → isBefore le v w = true → isBefore le u w = true) ∧
      (v ≠ w ↔ (isBefore le v w = true ∧ isBefore le w v = false) ∨ (isBefore le w v = true ∧ isBefore le v w = false))) ∧
  (∀ v w : NetAddr, isBefore false v w = true ↔ v.toNat < w.toNat) ∧
  (∀ v w : NetAddr, isBefore true v w = true ↔ (orderKey true v).toNat < (orderKey true w).toNat) ∧
  (∀ (v : NetAddr) (k : Nat), k < 4 → (orderKey true v).extractLsb' (8 * k) 8 = v.extractLsb' (24 - 8 * k) 8)

/-- NISMASK completes with OK, X[d] = 1 if v = N[a] is not 0, its low byte is neither 254 nor 255, and c + 1 and c share
no bit for c = 2^32 - 1 - v, and X[d] = 0 otherwise; nothing else changes. (R100) -/
def Obligations.MaskTestComputesTheThreeTests : Prop :=
  ∀ (d : XReg) (a : NReg) (s : State),
    decode (wordR 0x28 (nibble d) (nibble a) 0) = .ok (.nismask d a) ∧
    ∃ t, exec (.nismask d a) s = .next t ∧
      (((s.getN a).toNat ≠ 0 ∧ (s.getN a).toNat % 256 ≠ 254 ∧ (s.getN a).toNat % 256 ≠ 255 ∧
        (2 ^ 32 - 1 - (s.getN a).toNat + 1) &&& (2 ^ 32 - 1 - (s.getN a).toNat) = 0) → t.getX d = 1) ∧
      (¬ ((s.getN a).toNat ≠ 0 ∧ (s.getN a).toNat % 256 ≠ 254 ∧ (s.getN a).toNat % 256 ≠ 255 ∧
        (2 ^ 32 - 1 - (s.getN a).toNat + 1) &&& (2 ^ 32 - 1 - (s.getN a).toNat) = 0) → t.getX d = 0) ∧
      t.st = .ok ∧ OnlyX d s t

/-- The third test holds exactly when the complement is 2^k - 1 for some k from 0 to 32; the whole test holds exactly for
v = (0xFFFFFFFF << k) mod 2^32 with k from 2 to 31, and these are 30 different values; and in every state NISMASK
completes with OK and X[d] = 1 exactly when N[a] is one of them, 0 otherwise. (R104) -/
def Obligations.ValidMasksAreTheThirtyPrefixes : Prop :=
  (∀ v : NetAddr, ((~~~v).toNat + 1) &&& (~~~v).toNat = 0 ↔ ∃ k, k ≤ 32 ∧ (~~~v).toNat = 2 ^ k - 1) ∧
  (∀ v : NetAddr, isValidMask v = true ↔ ∃ k, 2 ≤ k ∧ k ≤ 31 ∧ v = (0xFFFFFFFF : BitVec 32) <<< k) ∧
  (∀ j k, 2 ≤ j → j ≤ 31 → 2 ≤ k → k ≤ 31 → (0xFFFFFFFF : BitVec 32) <<< j = (0xFFFFFFFF : BitVec 32) <<< k → j = k) ∧
  (∀ (d : XReg) (a : NReg) (s : State), ∃ t, exec (.nismask d a) s = .next t ∧ t.st = .ok ∧
    (t.getX d = 1 ↔ ∃ k, 2 ≤ k ∧ k ≤ 31 ∧ s.getN a = (0xFFFFFFFF : BitVec 32) <<< k) ∧
    (t.getX d = 0 ↔ ¬ ∃ k, 2 ≤ k ∧ k ≤ 31 ∧ s.getN a = (0xFFFFFFFF : BitVec 32) <<< k))

/-- For every index and state, with no condition on the mask N[b]: NNET completes with OK and N[d] = N[a] & N[b], NBCAST
with OK and N[d] = N[a] | ~N[b]; each is the format R word with its cmd and changes nothing but N[d] and ST. (R101,
R102, R103) -/
def Obligations.DerivedAddressesForAnyMask : Prop :=
  ∀ (d a b : NReg) (s : State),
    (decode (wordR 0x29 (nibble d) (nibble a) (nibble b)) = .ok (.nnet d a b) ∧
      ∃ t, exec (.nnet d a b) s = .next t ∧
        (∀ k, k < 32 → (t.getN d).getLsbD k = ((s.getN a).getLsbD k && (s.getN b).getLsbD k)) ∧ t.st = .ok ∧
        OnlyN d s t) ∧
    (decode (wordR 0x2A (nibble d) (nibble a) (nibble b)) = .ok (.nbcast d a b) ∧
      ∃ t, exec (.nbcast d a b) s = .next t ∧
        (∀ k, k < 32 → (t.getN d).getLsbD k = ((s.getN a).getLsbD k || !(s.getN b).getLsbD k)) ∧ t.st = .ok ∧
        OnlyN d s t)

/-- For every index and state: HMOV completes with OK and H[d] = H[a], HSETBC with OK and H[d] = 0xFFFFFFFFFFFF; each is
the format R word with its cmd and changes nothing but H[d] and ST. (R111, R118) -/
def Obligations.HardwareCopyAndBroadcast : Prop :=
  ∀ (d a : HReg) (s : State),
    (decode (wordR 0x30 (nibble d) (nibble a) 0) = .ok (.hmov d a) ∧
      ∃ t, exec (.hmov d a) s = .next t ∧ t.getH d = s.getH a ∧ t.st = .ok ∧ OnlyH d s t) ∧
    (decode (wordR 0x37 (nibble d) 0 0) = .ok (.hsetbc d) ∧
      ∃ t, exec (.hsetbc d) s = .next t ∧ t.getH d = 0xFFFFFFFFFFFF ∧ t.st = .ok ∧ OnlyH d s t)

/-- For off <= 22 the word decodes to HLD, which completes with OK, gives H[r] the bytes WB[off..off+5] with WB[off] in
bits 47:40, and changes nothing else; for off > 22 the word is illegal. (R112) -/
def Obligations.HardwareLoadTakesSixBytes : Prop :=
  ∀ (r : HReg) (off : BitVec 5) (s : State),
    (off.toNat ≤ 22 → decode (wordM 0x31 (nibble r) 0 off) = .ok (.hld r off) ∧
      ∃ t, exec (.hld r off) s = .next t ∧
        (∀ k, k < 6 → (t.getH r).extractLsb' (40 - 8 * k) 8 = s.byte (off.toNat + k)) ∧ t.st = .ok ∧ OnlyH r s t) ∧
    (22 < off.toNat → decode (wordM 0x31 (nibble r) 0 off) = .error .offsetBound)

/-- For off + cnt <= 28 the word decodes to HLDL. If cnt >= 6 it completes with OK, H[r] = the bytes WB[off..off+5],
nothing else changed; if cnt < 6 it completes with SHORT_LIST and nothing but ST changes. For off + cnt > 28 the word
is illegal, also when cnt < 6. (R113) -/
def Obligations.HardwareListLoadNeedsSixElements : Prop :=
  ∀ (r : HReg) (off : BitVec 5) (cnt : BitVec 4) (s : State),
    (off.toNat + cnt.toNat ≤ 28 → decode (wordM 0x32 (nibble r) cnt off) = .ok (.hldl r off cnt) ∧
      (6 ≤ cnt.toNat → ∃ t, exec (.hldl r off cnt) s = .next t ∧
        (∀ k, k < 6 → (t.getH r).extractLsb' (40 - 8 * k) 8 = s.byte (off.toNat + k)) ∧ t.st = .ok ∧ OnlyH r s t) ∧
      (cnt.toNat < 6 → ∃ t, exec (.hldl r off cnt) s = .next t ∧ t.st = .shortList ∧ OnlyST s t)) ∧
    (28 < off.toNat + cnt.toNat → decode (wordM 0x32 (nibble r) cnt off) = .error .offsetBound ∧
      ∃ t, issue (wordM 0x32 (nibble r) cnt off) s = .next t ∧ t.st = .illegalCmd ∧ OnlyST s t)

/-- For off <= 22 the word decodes to HST, which completes with OK, gives WB[off+k] = H[r][47-8k:40-8k] for k = 0..5,
changes no other byte, register or field, and HLD of the same offset then returns the value; for off > 22 the word is
illegal. (R114) -/
def Obligations.HardwareStoreIsBigEndian : Prop :=
  ∀ (r : HReg) (off : BitVec 5) (s : State),
    (off.toNat ≤ 22 → decode (wordM 0x33 (nibble r) 0 off) = .ok (.hst r off) ∧
      ∃ t, exec (.hst r off) s = .next t ∧
        (∀ k, k < 6 → t.byte (off.toNat + k) = (s.getH r).extractLsb' (40 - 8 * k) 8) ∧ t.st = .ok ∧
        OnlyWB off.toNat 6 s t ∧ ∀ q : HReg, ∃ u, exec (.hld q off) t = .next u ∧ u.getH q = s.getH r) ∧
    (22 < off.toNat → decode (wordM 0x33 (nibble r) 0 off) = .error .offsetBound)

/-- For every index and state: HEQ gives X[d] = 1 if the six bytes of H[a] and H[b] match and 0 otherwise, HNE the
complement, HISNULL gives 1 if the six bytes of H[a] are zero and 0 otherwise; each completes with OK, is the format R
word with its cmd, and changes nothing but X[d] and ST. (R115, R116, R117) -/
def Obligations.HardwareTests : Prop :=
  ∀ (d : XReg) (a b : HReg) (s : State),
    (decode (wordR 0x34 (nibble d) (nibble a) (nibble b)) = .ok (.heq d a b) ∧
      ∃ t, exec (.heq d a b) s = .next t ∧
        ((∀ k, k < 6 → (s.getH a).extractLsb' (8 * k) 8 = (s.getH b).extractLsb' (8 * k) 8) → t.getX d = 1) ∧
        ((∃ k, k < 6 ∧ (s.getH a).extractLsb' (8 * k) 8 ≠ (s.getH b).extractLsb' (8 * k) 8) → t.getX d = 0) ∧
        t.st = .ok ∧ OnlyX d s t) ∧
    (decode (wordR 0x35 (nibble d) (nibble a) (nibble b)) = .ok (.hne d a b) ∧
      ∃ t, exec (.hne d a b) s = .next t ∧
        ((∀ k, k < 6 → (s.getH a).extractLsb' (8 * k) 8 = (s.getH b).extractLsb' (8 * k) 8) → t.getX d = 0) ∧
        ((∃ k, k < 6 ∧ (s.getH a).extractLsb' (8 * k) 8 ≠ (s.getH b).extractLsb' (8 * k) 8) → t.getX d = 1) ∧
        t.st = .ok ∧ OnlyX d s t) ∧
    (decode (wordR 0x36 (nibble d) (nibble a) 0) = .ok (.hisnull d a) ∧
      ∃ t, exec (.hisnull d a) s = .next t ∧
        ((∀ k, k < 6 → (s.getH a).extractLsb' (8 * k) 8 = 0) → t.getX d = 1) ∧
        ((∃ k, k < 6 ∧ (s.getH a).extractLsb' (8 * k) 8 ≠ 0) → t.getX d = 0) ∧ t.st = .ok ∧ OnlyX d s t)

/-- FINIT is the word 0x40000000; in every state it completes with OK, F has htype 1, ptype 0x0800, hlen 6, plen 4, oper 1
and zero addresses, which is F after reset, and no register and no byte of WB changes. (R133) -/
def Obligations.FrameInitialisation : Prop :=
  ∀ s : State, decode 0x40000000 = .ok .finit ∧
    ∃ t, exec .finit s = .next t ∧
      t.f = { htype := 1, ptype := 0x0800, hlen := 6, plen := 4, oper := 1, sha := 0, spa := 0, tha := 0, tpa := 0 } ∧
      t.f = State.reset.f ∧ t.st = .ok ∧ OnlyF s t

/-- FENC is the word 0x41000000; in every state it completes with OK, each of the 28 bytes of WB is the byte of F that
R130 gives for its offset, the list encodeFrame has 28 bytes and is what WB then holds, FENC again gives the same
bytes, and no register and no field of F changes. (R130, R134) -/
def Obligations.FrameEncodeLaysOutEveryByte : Prop :=
  ∀ s : State, decode 0x41000000 = .ok .fenc ∧
    ∃ t, exec .fenc s = .next t ∧
      t.byte 0 = s.f.htype.extractLsb' 8 8 ∧ t.byte 1 = s.f.htype.extractLsb' 0 8 ∧
      t.byte 2 = s.f.ptype.extractLsb' 8 8 ∧ t.byte 3 = s.f.ptype.extractLsb' 0 8 ∧
      t.byte 4 = s.f.hlen ∧ t.byte 5 = s.f.plen ∧
      t.byte 6 = s.f.oper.extractLsb' 8 8 ∧ t.byte 7 = s.f.oper.extractLsb' 0 8 ∧
      (∀ k, k < 6 → t.byte (8 + k) = s.f.sha.extractLsb' (40 - 8 * k) 8) ∧
      (∀ k, k < 4 → t.byte (14 + k) = s.f.spa.extractLsb' (24 - 8 * k) 8) ∧
      (∀ k, k < 6 → t.byte (18 + k) = s.f.tha.extractLsb' (40 - 8 * k) 8) ∧
      (∀ k, k < 4 → t.byte (24 + k) = s.f.tpa.extractLsb' (24 - 8 * k) 8) ∧
      (encodeFrame s.f).length = 28 ∧ t.memRead 0 28 = encodeFrame s.f ∧ t.st = .ok ∧ OnlyWB 0 28 s t ∧
      ∃ u, exec .fenc t = .next u ∧ KeepsWB t u

/-- FDEC is the word 0x42000000; in every state, whatever WB holds, it completes with OK, each byte of each field of F is
the byte of WB that R131 gives, and no register and no byte of WB changes. (R131, R135) -/
def Obligations.FrameDecodeReadsEveryByte : Prop :=
  ∀ s : State, decode 0x42000000 = .ok .fdec ∧
    ∃ t, exec .fdec s = .next t ∧
      s.byte 0 = t.f.htype.extractLsb' 8 8 ∧ s.byte 1 = t.f.htype.extractLsb' 0 8 ∧
      s.byte 2 = t.f.ptype.extractLsb' 8 8 ∧ s.byte 3 = t.f.ptype.extractLsb' 0 8 ∧
      s.byte 4 = t.f.hlen ∧ s.byte 5 = t.f.plen ∧
      s.byte 6 = t.f.oper.extractLsb' 8 8 ∧ s.byte 7 = t.f.oper.extractLsb' 0 8 ∧
      (∀ k, k < 6 → s.byte (8 + k) = t.f.sha.extractLsb' (40 - 8 * k) 8) ∧
      (∀ k, k < 4 → s.byte (14 + k) = t.f.spa.extractLsb' (24 - 8 * k) 8) ∧
      (∀ k, k < 6 → s.byte (18 + k) = t.f.tha.extractLsb' (40 - 8 * k) 8) ∧
      (∀ k, k < 4 → s.byte (24 + k) = t.f.tpa.extractLsb' (24 - 8 * k) 8) ∧
      t.f = decodeFrame (s.memRead 0 28) ∧ t.st = .ok ∧ OnlyF s t

/-- decode(encode(F)) = F for every frame F, and encode(decode(b)) = b for every sequence b of 28 bytes. (R132) -/
def Obligations.FrameRoundTripBothWays : Prop :=
  (∀ f : Frame, (encodeFrame f).length = 28 ∧ decodeFrame (encodeFrame f) = f) ∧
  (∀ b : List Byte, b.length = 28 → encodeFrame (decodeFrame b) = b)

/-- In every state, FENC followed by FDEC completes twice with OK and F is what it was; FDEC followed by FENC completes
twice with OK and every byte of WB reads as it did. (42_arp_frame.md R134, 42_arp_frame.md R135, 42_arp_frame.md R157) -/
def Obligations.FrameCommandsUndoEachOther : Prop :=
  ∀ s : State,
    (∃ t u, exec .fenc s = .next t ∧ exec .fdec t = .next u ∧ t.st = .ok ∧ u.st = .ok ∧ u.f = s.f) ∧
    (∃ t u, exec .fdec s = .next t ∧ exec .fenc t = .next u ∧ t.st = .ok ∧ u.st = .ok ∧ ∀ o, u.byte o = s.byte o)

/-- FSHTYPE, FSPTYPE and FSOPER store X[a][15:0] and FSHLEN and FSPLEN store X[a][7:0], any value, in their field; each
completes with OK, is the format R word with cmd 0x50 + k and index in ra, and changes neither another field nor a
register nor a byte of WB. (R137, R138, R139, R140, R141) -/
def Obligations.IntegerSettersTruncate : Prop :=
  ∀ (a : XReg) (s : State),
    (decode (wordR 0x50 0 (nibble a) 0) = .ok (.fshtype a) ∧
      ∃ t, exec (.fshtype a) s = .next t ∧ t.f = { s.f with htype := (s.getX a).extractLsb' 0 16 } ∧ t.st = .ok ∧ OnlyF s t) ∧
    (decode (wordR 0x51 0 (nibble a) 0) = .ok (.fsptype a) ∧
      ∃ t, exec (.fsptype a) s = .next t ∧ t.f = { s.f with ptype := (s.getX a).extractLsb' 0 16 } ∧ t.st = .ok ∧ OnlyF s t) ∧
    (decode (wordR 0x52 0 (nibble a) 0) = .ok (.fshlen a) ∧
      ∃ t, exec (.fshlen a) s = .next t ∧ t.f = { s.f with hlen := (s.getX a).extractLsb' 0 8 } ∧ t.st = .ok ∧ OnlyF s t) ∧
    (decode (wordR 0x53 0 (nibble a) 0) = .ok (.fsplen a) ∧
      ∃ t, exec (.fsplen a) s = .next t ∧ t.f = { s.f with plen := (s.getX a).extractLsb' 0 8 } ∧ t.st = .ok ∧ OnlyF s t) ∧
    (decode (wordR 0x54 0 (nibble a) 0) = .ok (.fsoper a) ∧
      ∃ t, exec (.fsoper a) s = .next t ∧ t.f = { s.f with oper := (s.getX a).extractLsb' 0 16 } ∧ t.st = .ok ∧ OnlyF s t)

/-- FSSHA and FSTHA copy all 48 bits of H[a], FSSPA and FSTPA all 32 bits of N[b]; each completes with OK, is the format R
word with cmd 0x50 + k and index in ra, and changes neither another field nor a register nor a byte of WB. (R142,
R143, R144, R145) -/
def Obligations.AddressSettersCopyAllBits : Prop :=
  ∀ (a : HReg) (b : NReg) (s : State),
    (decode (wordR 0x55 0 (nibble a) 0) = .ok (.fssha a) ∧
      ∃ t, exec (.fssha a) s = .next t ∧ t.f = { s.f with sha := s.getH a } ∧ t.st = .ok ∧ OnlyF s t) ∧
    (decode (wordR 0x56 0 (nibble b) 0) = .ok (.fsspa b) ∧
      ∃ t, exec (.fsspa b) s = .next t ∧ t.f = { s.f with spa := s.getN b } ∧ t.st = .ok ∧ OnlyF s t) ∧
    (decode (wordR 0x57 0 (nibble a) 0) = .ok (.fstha a) ∧
      ∃ t, exec (.fstha a) s = .next t ∧ t.f = { s.f with tha := s.getH a } ∧ t.st = .ok ∧ OnlyF s t) ∧
    (decode (wordR 0x58 0 (nibble b) 0) = .ok (.fstpa b) ∧
      ∃ t, exec (.fstpa b) s = .next t ∧ t.f = { s.f with tpa := s.getN b } ∧ t.st = .ok ∧ OnlyF s t)

/-- FGHTYPE, FGPTYPE, FGHLEN, FGPLEN and FGOPER give X[d] = zext_32 of their field; each completes with OK, is the format
R word with cmd 0x60 + k and index in rd, and changes nothing but X[d] and ST. (R147, R148, R149, R150, R151) -/
def Obligations.IntegerGettersZeroExtend : Prop :=
  ∀ (d : XReg) (s : State),
    (decode (wordR 0x60 (nibble d) 0 0) = .ok (.fghtype d) ∧
      ∃ t, exec (.fghtype d) s = .next t ∧ t.getX d = s.f.htype.setWidth 32 ∧ t.st = .ok ∧ OnlyX d s t) ∧
    (decode (wordR 0x61 (nibble d) 0 0) = .ok (.fgptype d) ∧
      ∃ t, exec (.fgptype d) s = .next t ∧ t.getX d = s.f.ptype.setWidth 32 ∧ t.st = .ok ∧ OnlyX d s t) ∧
    (decode (wordR 0x62 (nibble d) 0 0) = .ok (.fghlen d) ∧
      ∃ t, exec (.fghlen d) s = .next t ∧ t.getX d = s.f.hlen.setWidth 32 ∧ t.st = .ok ∧ OnlyX d s t) ∧
    (decode (wordR 0x63 (nibble d) 0 0) = .ok (.fgplen d) ∧
      ∃ t, exec (.fgplen d) s = .next t ∧ t.getX d = s.f.plen.setWidth 32 ∧ t.st = .ok ∧ OnlyX d s t) ∧
    (decode (wordR 0x64 (nibble d) 0 0) = .ok (.fgoper d) ∧
      ∃ t, exec (.fgoper d) s = .next t ∧ t.getX d = s.f.oper.setWidth 32 ∧ t.st = .ok ∧ OnlyX d s t)

/-- FGSHA and FGTHA copy all 48 bits of their field to H[d], FGSPA and FGTPA all 32 bits to N[e]; each completes with OK,
is the format R word with cmd 0x60 + k and index in rd, and changes nothing but the destination and ST. (R152, R153,
R154, R155) -/
def Obligations.AddressGettersCopyAllBits : Prop :=
  ∀ (d : HReg) (e : NReg) (s : State),
    (decode (wordR 0x65 (nibble d) 0 0) = .ok (.fgsha d) ∧
      ∃ t, exec (.fgsha d) s = .next t ∧ t.getH d = s.f.sha ∧ t.st = .ok ∧ OnlyH d s t) ∧
    (decode (wordR 0x66 (nibble e) 0 0) = .ok (.fgspa e) ∧
      ∃ t, exec (.fgspa e) s = .next t ∧ t.getN e = s.f.spa ∧ t.st = .ok ∧ OnlyN e s t) ∧
    (decode (wordR 0x67 (nibble d) 0 0) = .ok (.fgtha d) ∧
      ∃ t, exec (.fgtha d) s = .next t ∧ t.getH d = s.f.tha ∧ t.st = .ok ∧ OnlyH d s t) ∧
    (decode (wordR 0x68 (nibble e) 0 0) = .ok (.fgtpa e) ∧
      ∃ t, exec (.fgtpa e) s = .next t ∧ t.getN e = s.f.tpa ∧ t.st = .ok ∧ OnlyN e s t)

/-- For off <= 24 and k < 4: after NST the byte load at off + k completes with OK and gives that byte of the stored
register zero-extended; and NLD at off gives in its byte k from the top what LDB at off + k gives. (20_memory.md R42,
20_memory.md R46) -/
def Obligations.StoredWordReadsBackBytewise : Prop :=
  ∀ (r q : NReg) (e : XReg) (off lo : BitVec 5) (k : Nat) (s : State), off.toNat ≤ 24 → k < 4 →
    lo.toNat = off.toNat + k →
    (∃ t u, exec (.nst r off) s = .next t ∧ exec (.ldb e lo) t = .next u ∧ u.st = .ok ∧
      u.getX e = ((s.getN r).extractLsb' (24 - 8 * k) 8).setWidth 32) ∧
    (∃ t u, exec (.nld q off) s = .next t ∧ exec (.ldb e lo) s = .next u ∧
      ((t.getN q).extractLsb' (24 - 8 * k) 8).setWidth 32 = u.getX e)

/-- For every 32-bit v, na_from_text(na_to_text(v)) = v, whatever LEADING_ZERO_OK is; for every canonical string s,
na_to_text(na_from_text(s)) = s; and an accepted string that is not canonical exists only when LEADING_ZERO_OK is true
and differs from the text of its value, which is canonical text of the same value. (R173) -/
def Obligations.DottedQuadRoundTrip : Prop :=
  (∀ (zeroOk : Bool) (v : NetAddr), naFromTextWith zeroOk (naToText v) = .ok v) ∧
  (∀ v : NetAddr, naFromText (naToText v) = .ok v) ∧
  (∀ (s : List Char) (v w : NetAddr), s = naToText v → naFromText s = .ok w → naToText w = s) ∧
  (∀ (zeroOk : Bool) (s : List Char) (v : NetAddr), naFromTextWith zeroOk s = .ok v → (∀ w, naToText w ≠ s) →
    zeroOk = true ∧ naFromTextWith zeroOk (naToText v) = .ok v ∧ naToText v ≠ s)

/-- For every 48-bit h, ha_to_text(h) has 17 characters, none of them upper case, and ha_from_text gives h back; every
accepted string of 17 characters without an upper-case letter is the text of its value; an accepted non-canonical
string comes back as the canonical text of the same value. (R177) -/
def Obligations.ColonHexRoundTrip : Prop :=
  (∀ h : HwAddr, (haToText h).length = 17 ∧ (∀ c ∈ haToText h, ¬ (65 ≤ c.toNat ∧ c.toNat ≤ 90)) ∧
      haFromText (haToText h) = .ok h) ∧
  (∀ (s : List Char) (h : HwAddr), haFromText s = .ok h → s.length = 17 →
    (∀ c ∈ s, ¬ (65 ≤ c.toNat ∧ c.toNat ≤ 90)) → haToText h = s) ∧
  (∀ (s : List Char) (h : HwAddr), haFromText s = .ok h → haFromText (haToText h) = .ok h)

/-- In every state: NGT expands to one command that completes with OK and gives X[d] = 1 if N[a] is after N[b] in the
ordering and 0 otherwise; XLI32 to two that complete with OK and leave X[d] = imm32; NLI to three that complete with
OK and leave N[e] = X[d] = v; nothing else changes. (30_encoding.md R71) -/
def Obligations.PseudoInstructionsDoWhatTheirTableSays : Prop :=
  ∀ (d : XReg) (a b e : NReg) (imm : BitVec 32) (v : NetAddr) (s : State),
    (∃ i t, expandPseudo (.ngt d a b) = [i] ∧ exec i s = .next t ∧
      (isBefore Config.rawLe (s.getN b) (s.getN a) = true → t.getX d = 1) ∧
      (isBefore Config.rawLe (s.getN b) (s.getN a) = false → t.getX d = 0) ∧ t.st = .ok ∧ OnlyX d s t) ∧
    (∃ i j t u, expandPseudo (.xli32 d imm) = [i, j] ∧ exec i s = .next t ∧ exec j t = .next u ∧ t.st = .ok ∧
      u.st = .ok ∧ u.getX d = imm ∧ OnlyX d s u) ∧
    (∃ i j k t u w, expandPseudo (.nli e d v) = [i, j, k] ∧ exec i s = .next t ∧ exec j t = .next u ∧
      exec k u = .next w ∧ t.st = .ok ∧ u.st = .ok ∧ w.st = .ok ∧ w.getN e = v ∧ w.getX d = v ∧
      (∀ r, r ≠ d → w.getX r = s.getX r) ∧ (∀ r, r ≠ e → w.getN r = s.getN r) ∧ KeepsH s w ∧ KeepsF s w ∧
      KeepsWB s w)
end

