-- ==== Sys2Proof/Laws/Decode.lean ====
section
/-! SUPPORT. The fields of an encoded word, a word put together from its fields, the slots, and what it means that a
format accepts a word. -/

namespace Sys2Proof

/-! ### Fields of encoded words -/

@[simp] theorem cmdField_wordR (c : BitVec 8) (d a b : BitVec 4) : cmdField (wordR c d a b) = c := by
  unfold cmdField wordR; ext i hi; interval_cases i <;> simp

@[simp] theorem rdField_wordR (c : BitVec 8) (d a b : BitVec 4) : rdField (wordR c d a b) = d := by
  unfold rdField wordR; ext i hi; interval_cases i <;> simp

@[simp] theorem raField_wordR (c : BitVec 8) (d a b : BitVec 4) : raField (wordR c d a b) = a := by
  unfold raField wordR; ext i hi; interval_cases i <;> simp

@[simp] theorem rbField_wordR (c : BitVec 8) (d a b : BitVec 4) : rbField (wordR c d a b) = b := by
  unfold rbField wordR; ext i hi; interval_cases i <;> simp

@[simp] theorem lowField_wordR (c : BitVec 8) (d a b : BitVec 4) : lowField (wordR c d a b) = 0 := by
  unfold lowField wordR; ext i hi; interval_cases i <;> simp

@[simp] theorem cmdField_wordI (c : BitVec 8) (d : BitVec 4) (m : BitVec 16) : cmdField (wordI c d m) = c := by
  unfold cmdField wordI; ext i hi; interval_cases i <;> simp

@[simp] theorem rdField_wordI (c : BitVec 8) (d : BitVec 4) (m : BitVec 16) : rdField (wordI c d m) = d := by
  unfold rdField wordI; ext i hi; interval_cases i <;> simp

@[simp] theorem raField_wordI (c : BitVec 8) (d : BitVec 4) (m : BitVec 16) : raField (wordI c d m) = 0 := by
  unfold raField wordI; ext i hi; interval_cases i <;> simp

@[simp] theorem immField_wordI (c : BitVec 8) (d : BitVec 4) (m : BitVec 16) : immField (wordI c d m) = m := by
  unfold immField wordI; ext i hi; interval_cases i <;> simp

@[simp] theorem cmdField_wordM (c : BitVec 8) (r k : BitVec 4) (o : BitVec 5) : cmdField (wordM c r k o) = c := by
  unfold cmdField wordM; ext i hi; interval_cases i <;> simp

@[simp] theorem rdField_wordM (c : BitVec 8) (r k : BitVec 4) (o : BitVec 5) : rdField (wordM c r k o) = r := by
  unfold rdField wordM; ext i hi; interval_cases i <;> simp

@[simp] theorem midField_wordM (c : BitVec 8) (r k : BitVec 4) (o : BitVec 5) : midField (wordM c r k o) = 0 := by
  unfold midField wordM; ext i hi; interval_cases i <;> simp

@[simp] theorem cntField_wordM (c : BitVec 8) (r k : BitVec 4) (o : BitVec 5) : cntField (wordM c r k o) = k := by
  unfold cntField wordM; ext i hi; interval_cases i <;> simp

@[simp] theorem gapField_wordM (c : BitVec 8) (r k : BitVec 4) (o : BitVec 5) : gapField (wordM c r k o) = 0 := by
  unfold gapField wordM; ext i hi; interval_cases i <;> simp

@[simp] theorem offField_wordM (c : BitVec 8) (r k : BitVec 4) (o : BitVec 5) : offField (wordM c r k o) = o := by
  unfold offField wordM; ext i hi; interval_cases i <;> simp

/-! ### A word from its fields -/

theorem getLsbD_of_field {w : CmdWord} {k len : Nat} {f : BitVec len} (h : w.extractLsb' k len = f) {i : Nat}
    (hi : i < len) : w.getLsbD (k + i) = f.getLsbD i := by
  simp [← h, hi]

theorem wordR_of_fields (w : CmdWord) (h : lowField w = 0) :
    wordR (cmdField w) (rdField w) (raField w) (rbField w) = w := by
  apply BitVec.eq_of_getLsbD_eq
  intro i hi
  by_cases hl : i < 12
  · have := getLsbD_of_field h hl
    interval_cases i <;> simp_all [wordR]
  · interval_cases i <;> first | omega | simp [wordR, cmdField, rdField, raField, rbField]

theorem wordI_of_fields (w : CmdWord) (h : raField w = 0) : wordI (cmdField w) (rdField w) (immField w) = w := by
  apply BitVec.eq_of_getLsbD_eq
  intro i hi
  by_cases hl : 16 ≤ i ∧ i < 20
  · have := getLsbD_of_field h (i := i - 16) (by omega)
    obtain ⟨h1, h2⟩ := hl
    interval_cases i <;> simp_all [wordI]
  · interval_cases i <;> first | omega | simp [wordI, cmdField, rdField, immField]

theorem wordM_of_fields (w : CmdWord) (hm : midField w = 0) (hg : gapField w = 0) :
    wordM (cmdField w) (rdField w) (cntField w) (offField w) = w := by
  apply BitVec.eq_of_getLsbD_eq
  intro i hi
  by_cases hl : 12 ≤ i ∧ i < 20
  · have := getLsbD_of_field hm (i := i - 12) (by omega)
    obtain ⟨h1, h2⟩ := hl
    interval_cases i <;> simp_all [wordM]
  · by_cases hl' : 5 ≤ i ∧ i < 8
    · have := getLsbD_of_field hg (i := i - 5) (by omega)
      obtain ⟨h1, h2⟩ := hl'
      interval_cases i <;> simp_all [wordM]
    · interval_cases i <;> first | omega | simp [wordM, cmdField, rdField, cntField, offField]

/-! ### Slots -/

theorem toNat_nibble {n : Nat} (r : Fin n) (h : n ≤ 16) : (nibble r).toNat = r.val := by
  have := r.isLt
  simp only [nibble, BitVec.toNat_ofNat]
  omega

theorem xSlot_ok_iff (b : BitVec 4) (r : XReg) : xSlot b = .ok r ↔ b = nibble r := by
  unfold xSlot
  constructor
  · intro h
    split at h
    · cases h; apply BitVec.eq_of_toNat_eq; rw [toNat_nibble _ (by omega)]
    · cases h
  · rintro rfl
    have := r.isLt
    simp [toNat_nibble r (by omega)]

theorem nSlot_ok_iff (b : BitVec 4) (r : NReg) : nSlot b = .ok r ↔ b = nibble r := xSlot_ok_iff b r

theorem hSlot_ok_iff (b : BitVec 4) (r : HReg) : hSlot b = .ok r ↔ b = nibble r := by
  unfold hSlot
  constructor
  · intro h
    split at h
    · cases h; apply BitVec.eq_of_toNat_eq; rw [toNat_nibble _ (by omega)]
    · cases h
  · rintro rfl
    have := r.isLt
    simp [toNat_nibble r (by omega)]

theorem zeroField_ok_iff {k : Nat} (b : BitVec k) (u : Unit) : zeroField b = .ok u ↔ b = 0 := by
  unfold zeroField; split <;> simp_all

theorem withinBound_ok_iff (c : Bool) (u : Unit) : withinBound c = .ok u ↔ c = true := by
  unfold withinBound; split <;> simp_all

/-! ### Formats -/

theorem except_bind_ok_iff {ε α β : Type} (x : Except ε α) (f : α → Except ε β) (b : β) :
    (x >>= f) = .ok b ↔ ∃ a, x = .ok a ∧ f a = .ok b := by
  cases x <;> simp [bind, Except.bind]

/-- Format R accepts a word: the slots accept their nibbles and bits 11:0 are zero. -/
theorem formatR_ok_iff {α β γ : Type} (w : CmdWord) (sd : BitVec 4 → Except Illegal α) (sa : BitVec 4 → Except Illegal β)
    (sb : BitVec 4 → Except Illegal γ) (mk : α → β → γ → Instr) (i : Instr) :
    formatR w sd sa sb mk = .ok i ↔
      ∃ d a b, sd (rdField w) = .ok d ∧ sa (raField w) = .ok a ∧ sb (rbField w) = .ok b ∧ lowField w = 0 ∧
        mk d a b = i := by
  simp only [formatR, except_bind_ok_iff, zeroField_ok_iff, pure, Except.pure, Except.ok.injEq]
  constructor
  · rintro ⟨d, hd, a, ha, b, hb, -, hl, hi⟩; exact ⟨d, a, b, hd, ha, hb, hl, hi⟩
  · rintro ⟨d, a, b, hd, ha, hb, hl, hi⟩; exact ⟨d, hd, a, ha, b, hb, (), hl, hi⟩

/-- Format I accepts a word. -/
theorem formatI_ok_iff (w : CmdWord) (mk : XReg → BitVec 16 → Instr) (i : Instr) :
    formatI w mk = .ok i ↔ ∃ d, rdField w = nibble d ∧ raField w = 0 ∧ mk d (immField w) = i := by
  simp only [formatI, except_bind_ok_iff, zeroField_ok_iff, xSlot_ok_iff, pure, Except.pure, Except.ok.injEq]
  constructor
  · rintro ⟨d, hd, -, ha, hi⟩; exact ⟨d, hd, ha, hi⟩
  · rintro ⟨d, hd, ha, hi⟩; exact ⟨d, hd, (), ha, hi⟩

/-- Format M accepts a word of a command other than HLDL. -/
theorem formatM_ok_iff {α : Type} (w : CmdWord) (sr : BitVec 4 → Except Illegal α) (max : Nat)
    (mk : α → BitVec 5 → Instr) (i : Instr) :
    formatM w sr max mk = .ok i ↔
      ∃ r, sr (rdField w) = .ok r ∧ midField w = 0 ∧ cntField w = 0 ∧ gapField w = 0 ∧ (offField w).toNat ≤ max ∧
        mk r (offField w) = i := by
  simp only [formatM, except_bind_ok_iff, zeroField_ok_iff, withinBound_ok_iff, pure, Except.pure, Except.ok.injEq,
    decide_eq_true_eq]
  constructor
  · rintro ⟨r, hr, -, hm, -, hc, -, hg, -, ho, hi⟩; exact ⟨r, hr, hm, hc, hg, ho, hi⟩
  · rintro ⟨r, hr, hm, hc, hg, ho, hi⟩; exact ⟨r, hr, (), hm, (), hc, (), hg, (), ho, hi⟩

/-- Format M accepts a word of HLDL. -/
theorem formatML_ok_iff (w : CmdWord) (mk : HReg → BitVec 5 → BitVec 4 → Instr) (i : Instr) :
    formatML w mk = .ok i ↔
      ∃ r, hSlot (rdField w) = .ok r ∧ midField w = 0 ∧ gapField w = 0 ∧
        (offField w).toNat + (cntField w).toNat ≤ 28 ∧ mk r (offField w) (cntField w) = i := by
  simp only [formatML, except_bind_ok_iff, zeroField_ok_iff, withinBound_ok_iff, pure, Except.pure, Except.ok.injEq,
    decide_eq_true_eq]
  constructor
  · rintro ⟨r, hr, -, hm, -, hg, -, ho, hi⟩; exact ⟨r, hr, hm, hg, ho, hi⟩
  · rintro ⟨r, hr, hm, hg, ho, hi⟩; exact ⟨r, hr, (), hm, (), hg, (), ho, hi⟩

/-! ### A word is its seven fields; masks act field by field -/

/-- Bit `k + i` of a word is bit `i` of the field at `k`. -/
theorem getLsbD_of_fields_eq {u v : CmdWord} {k len i : Nat} (h : u.extractLsb' k len = v.extractLsb' k len)
    (hk : k ≤ i) (hi : i < k + len) : u.getLsbD i = v.getLsbD i := by
  have e := congrArg (fun b => b.getLsbD (i - k)) h
  simpa [show i - k < len by omega, show k + (i - k) = i by omega] using e

theorem eq_iff_fields (u v : CmdWord) : u = v ↔ cmdField u = cmdField v ∧ rdField u = rdField v ∧
    raField u = raField v ∧ rbField u = rbField v ∧ cntField u = cntField v ∧ gapField u = gapField v ∧
    offField u = offField v := by
  constructor
  · rintro rfl; simp
  · rintro ⟨h1, h2, h3, h4, h5, h6, h7⟩
    apply BitVec.eq_of_getLsbD_eq
    intro i hi
    by_cases c7 : i < 5
    · exact getLsbD_of_fields_eq h7 (by omega) (by omega)
    by_cases c6 : i < 8
    · exact getLsbD_of_fields_eq h6 (by omega) (by omega)
    by_cases c5 : i < 12
    · exact getLsbD_of_fields_eq h5 (by omega) (by omega)
    by_cases c4 : i < 16
    · exact getLsbD_of_fields_eq h4 (by omega) (by omega)
    by_cases c3 : i < 20
    · exact getLsbD_of_fields_eq h3 (by omega) (by omega)
    by_cases c2 : i < 24
    · exact getLsbD_of_fields_eq h2 (by omega) (by omega)
    · exact getLsbD_of_fields_eq h1 (by omega) (by omega)

theorem cmdField_and (u v : CmdWord) : cmdField (u &&& v) = cmdField u &&& cmdField v := by
  ext i hi; simp [cmdField]

theorem rdField_and (u v : CmdWord) : rdField (u &&& v) = rdField u &&& rdField v := by
  ext i hi; simp [rdField]

theorem raField_and (u v : CmdWord) : raField (u &&& v) = raField u &&& raField v := by
  ext i hi; simp [raField]

theorem rbField_and (u v : CmdWord) : rbField (u &&& v) = rbField u &&& rbField v := by
  ext i hi; simp [rbField]

theorem cntField_and (u v : CmdWord) : cntField (u &&& v) = cntField u &&& cntField v := by
  ext i hi; simp [cntField]

theorem gapField_and (u v : CmdWord) : gapField (u &&& v) = gapField u &&& gapField v := by
  ext i hi; simp [gapField]

theorem offField_and (u v : CmdWord) : offField (u &&& v) = offField u &&& offField v := by
  ext i hi; simp [offField]

theorem lowField_eq_zero_iff (w : CmdWord) : lowField w = 0 ↔ cntField w = 0 ∧ gapField w = 0 ∧ offField w = 0 := by
  constructor
  · intro h
    have hb : ∀ i, i < 12 → w.getLsbD i = false := fun i hi => by simpa using getLsbD_of_field h hi
    refine ⟨?_, ?_, ?_⟩ <;>
    · apply BitVec.eq_of_getLsbD_eq
      intro i hi
      simp [cntField, gapField, offField]
      exact fun _ => hb _ (by omega)
  · rintro ⟨h5, h6, h7⟩
    apply BitVec.eq_of_getLsbD_eq
    intro i hi
    simp [lowField, hi]
    by_cases c7 : i < 5
    · simpa using getLsbD_of_field h7 c7
    by_cases c6 : i < 8
    · simpa [show 5 + (i - 5) = i by omega] using getLsbD_of_field h6 (i := i - 5) (by omega)
    · simpa [show 8 + (i - 8) = i by omega] using getLsbD_of_field h5 (i := i - 8) (by omega)

theorem midField_eq_zero_iff (w : CmdWord) : midField w = 0 ↔ raField w = 0 ∧ rbField w = 0 := by
  constructor
  · intro h
    have hb : ∀ i, i < 8 → w.getLsbD (12 + i) = false := fun i hi => by simpa using getLsbD_of_field h hi
    refine ⟨?_, ?_⟩
    · apply BitVec.eq_of_getLsbD_eq
      intro i hi
      simp [raField]
      intro _
      simpa [← Nat.add_assoc] using hb (4 + i) (by omega)
    · apply BitVec.eq_of_getLsbD_eq
      intro i hi
      simp [rbField]
      exact fun _ => hb i (by omega)
  · rintro ⟨h5, h6⟩
    apply BitVec.eq_of_getLsbD_eq
    intro i hi
    simp [midField, hi]
    by_cases c7 : i < 4
    · simpa using getLsbD_of_field h6 c7
    · simpa [show 16 + (i - 4) = 12 + i by omega] using getLsbD_of_field h5 (i := i - 4) (by omega)

/-- A nibble is an index into file X or N exactly when its bit 3 is clear. -/
theorem exists_nibble_eight_iff (b : BitVec 4) : (∃ d : XReg, b = nibble d) ↔ b &&& 8 = 0 := by
  revert b; decide

/-- A nibble is an index into file H exactly when its bits 3 and 2 are clear. -/
theorem exists_nibble_four_iff (b : BitVec 4) : (∃ d : HReg, b = nibble d) ↔ b &&& 12 = 0 := by
  revert b; decide

/-- A word handed over by the number of its 32 bits is the word. -/
@[simp] theorem tableWord_toNat (w : CmdWord) : tableWord 32 w.toNat = w := by
  unfold tableWord
  rw [Nat.mod_eq_of_lt w.isLt, BitVec.ofNat_toNat, BitVec.setWidth_eq]

end Sys2Proof
end

