-- ==== Sys2Proof/Laws/Memory.lean ====
section
/-! SUPPORT. The laws of the wire buffer: a read after a write, the canonical form kept by every write, equal bytes are
equal data; and the big-endian byte sequences, one lemma per width used. -/

namespace Sys2Proof.Machine

@[simp] theorem readByte_nil (o : Nat) : readByte [] o = unlistedByte := rfl

theorem readByte_filter (m : Memory) (o p : Nat) :
    readByte (m.filter (fun c => c.1 != o)) p = if p = o then unlistedByte else readByte m p := by
  induction m with
  | nil => simp
  | cons c rest ih =>
    by_cases hc : c.1 = o
    · simp only [List.filter, hc, bne_self_eq_false, ih, readByte]
      by_cases hp : p = o
      · simp [hp]
      · simp [hp, Ne.symm hp]
    · have hb : (c.1 != o) = true := by simp [hc]
      simp only [List.filter, hb, readByte, ih]
      by_cases hp : p = o
      · subst hp; simp [hc]
      · simp [hp]

theorem readByte_insertCell (c : Host.Cell) (m : Memory) (h : ∀ d ∈ m, d.1 ≠ c.1) (p : Nat) :
    readByte (insertCell c m) p = if p = c.1 then c.2 else readByte m p := by
  induction m with
  | nil => simp [insertCell, readByte, eq_comm]
  | cons d rest ih =>
    have hd : d.1 ≠ c.1 := h d (by simp)
    have ih' := ih (fun e he => h e (by simp [he]))
    unfold insertCell
    split
    · simp [readByte, eq_comm]
    · simp only [readByte, ih']
      by_cases hp : p = c.1
      · subst hp; simp [hd]
      · simp [hp]

/-- A read after a write of one byte: the byte written at its offset, the old byte everywhere else. -/
theorem readByte_writeByte (m : Memory) (o : Nat) (b : Byte) (p : Nat) :
    readByte (writeByte m o b) p = if p = o then b else readByte m p := by
  unfold writeByte
  split
  · next hb => rw [readByte_filter, hb]
  · rw [readByte_insertCell]
    · by_cases hp : p = o <;> simp [hp, readByte_filter]
    · intro d hd
      simpa using (List.mem_filter.mp hd).2

/-- A read after a write of a byte sequence. -/
theorem readByte_writeBytes (bs : List Byte) (m : Memory) (o p : Nat) :
    readByte (writeBytes m o bs) p = if o ≤ p ∧ p < o + bs.length then bs.getD (p - o) 0 else readByte m p := by
  induction bs generalizing m o with
  | nil => simp [writeBytes]
  | cons b bs ih =>
    simp only [writeBytes, ih, readByte_writeByte, List.length_cons]
    by_cases hp : p = o
    · subst hp; simp
    · by_cases hin : o + 1 ≤ p ∧ p < o + 1 + bs.length
      · have : p - o = (p - (o + 1)) + 1 := by omega
        simp [hin, this, show o ≤ p ∧ p < o + (bs.length + 1) by omega]
      · rw [if_neg hin]
        simp only [hp, if_false]
        rw [if_neg (by omega)]

@[simp] theorem length_readBytes (m : Memory) (o n : Nat) : (readBytes m o n).length = n := by
  induction n generalizing o with
  | zero => rfl
  | succ n ih => simp [readBytes, ih]

theorem getElem?_readBytes (m : Memory) (o n i : Nat) :
    (readBytes m o n)[i]? = if i < n then some (readByte m (o + i)) else none := by
  induction n generalizing o i with
  | zero => simp [readBytes]
  | succ n ih =>
    cases i with
    | zero => simp [readBytes]
    | succ i => simp [readBytes, ih, Nat.add_assoc, Nat.add_comm 1 i]

/-- Reading back the bytes just written at the same offset. -/
theorem readBytes_writeBytes (m : Memory) (o : Nat) (bs : List Byte) :
    readBytes (writeBytes m o bs) o bs.length = bs := by
  apply List.ext_getElem?
  intro i
  rw [getElem?_readBytes, readByte_writeBytes]
  by_cases hi : i < bs.length
  · simp [hi]
  · simp [hi]

/-! ### The canonical form -/

theorem wf_filter (m : Memory) (o : Nat) (h : m.wf) : Memory.wf (m.filter (fun c => c.1 != o)) :=
  ⟨h.1.filter _, fun c hc => h.2 c (List.mem_filter.mp hc).1⟩

theorem mem_insertCell (c d : Host.Cell) (m : Memory) : d ∈ insertCell c m ↔ d = c ∨ d ∈ m := by
  induction m with
  | nil => simp [insertCell]
  | cons e rest ih =>
    unfold insertCell
    split
    · simp
    · simp only [List.mem_cons, ih]; tauto

theorem wf_insertCell (c : Host.Cell) (m : Memory) (h : m.wf) (hne : ∀ d ∈ m, d.1 ≠ c.1) (hlt : c.1 < 28)
    (hb : c.2 ≠ unlistedByte) : Memory.wf (insertCell c m) := by
  refine ⟨?_, ?_⟩
  · have hp := h.1
    clear h
    induction m with
    | nil => simp [insertCell]
    | cons d rest ih =>
      rw [List.pairwise_cons] at hp
      have hd := hne d (by simp)
      have ih' := ih (fun e he => hne e (by simp [he])) hp.2
      unfold insertCell
      split
      · next hcd =>
        rw [List.pairwise_cons, List.pairwise_cons]
        refine ⟨?_, hp⟩
        intro e he
        rcases List.mem_cons.mp he with rfl | he
        · exact hcd
        · exact Nat.lt_trans hcd (hp.1 e he)
      · rw [List.pairwise_cons]
        refine ⟨?_, ih'⟩
        intro e he
        rcases (mem_insertCell c e rest).mp he with rfl | he
        · omega
        · exact hp.1 e he
  · intro d hd
    rcases (mem_insertCell c d m).mp hd with rfl | hd
    · exact ⟨hlt, hb⟩
    · exact h.2 d hd

/-- A write of one byte inside the buffer keeps the canonical form. -/
theorem wf_writeByte (m : Memory) (o : Nat) (b : Byte) (h : m.wf) (ho : o < 28) : Memory.wf (writeByte m o b) := by
  unfold writeByte
  split
  · exact wf_filter m o h
  · next hb =>
    refine wf_insertCell _ _ (wf_filter m o h) ?_ ho hb
    intro d hd
    simpa using (List.mem_filter.mp hd).2

/-- A write inside the buffer keeps the canonical form. -/
theorem wf_writeBytes (bs : List Byte) (m : Memory) (o : Nat) (h : m.wf) (ho : o + bs.length ≤ 28) :
    Memory.wf (writeBytes m o bs) := by
  induction bs generalizing m o with
  | nil => exact h
  | cons b bs ih =>
    simp only [List.length_cons] at ho
    exact ih _ _ (wf_writeByte m o b h (by omega)) (by omega)

theorem readByte_of_lt (m : Memory) (o : Nat) (h : ∀ c ∈ m, o < c.1) : readByte m o = unlistedByte := by
  induction m with
  | nil => rfl
  | cons c rest ih =>
    have := h c (by simp)
    simp only [readByte]
    rw [if_neg (by omega), ih (fun d hd => h d (by simp [hd]))]

/-- In canonical form, equal bytes are equal data. -/
theorem wf_ext (m m' : Memory) (h : m.wf) (h' : m'.wf) (he : ∀ o, readByte m o = readByte m' o) : m = m' := by
  induction m generalizing m' with
  | nil =>
    cases m' with
    | nil => rfl
    | cons c rest =>
      have := he c.1
      simp [readByte] at this
      exact absurd this.symm (h'.2 c (by simp)).2
  | cons c rest ih =>
    cases m' with
    | nil =>
      have := he c.1
      simp [readByte] at this
      exact absurd this (h.2 c (by simp)).2
    | cons d rest' =>
      have hp := List.pairwise_cons.mp h.1
      have hp' := List.pairwise_cons.mp h'.1
      have hcd : c.1 = d.1 := by
        rcases Nat.lt_trichotomy c.1 d.1 with hlt | heq | hgt
        · have h1 := he c.1
          rw [readByte_of_lt (d :: rest') c.1] at h1
          · simp [readByte] at h1
            exact absurd h1 (h.2 c (by simp)).2
          · intro e hem
            rcases List.mem_cons.mp hem with rfl | hem
            · exact hlt
            · exact Nat.lt_trans hlt (hp'.1 e hem)
        · exact heq
        · have h1 := he d.1
          rw [readByte_of_lt (c :: rest) d.1] at h1
          · simp [readByte] at h1
            exact absurd h1.symm (h'.2 d (by simp)).2
          · intro e hem
            rcases List.mem_cons.mp hem with rfl | hem
            · exact hgt
            · exact Nat.lt_trans hgt (hp.1 e hem)
      have hval : c.2 = d.2 := by simpa [readByte, hcd] using he c.1
      have hrest : rest = rest' := by
        refine ih rest' ⟨hp.2, fun e hm => h.2 e (by simp [hm])⟩ ⟨hp'.2, fun e hm => h'.2 e (by simp [hm])⟩ ?_
        intro o
        by_cases ho : o = c.1
        · rw [readByte_of_lt rest o, readByte_of_lt rest' o]
          · intro e hm; rw [ho, hcd]; exact hp'.1 e hm
          · intro e hm; rw [ho]; exact hp.1 e hm
        · have := he o
          simpa [readByte, ← hcd, Ne.symm ho] using this
      rw [hrest, Prod.ext hcd hval]

/-! ### Big-endian byte sequences -/

@[simp] theorem length_be {w : Nat} (v : BitVec w) (n : Nat) : (be v n).length = n := by
  induction n with
  | zero => rfl
  | succ n ih => simp [be, ih]

theorem frombe_append (w : Nat) (bs : List Byte) (b : Byte) :
    frombe w (bs ++ [b]) = frombe w bs <<< 8 ||| b.setWidth w := by
  simp [frombe]

theorem be_shift_or {w : Nat} (x : BitVec w) (b : Byte) (n : Nat) (h : 8 * (n + 1) ≤ w) :
    be (x <<< 8 ||| b.setWidth w) (n + 1) = be x n ++ [b] := by
  induction n with
  | zero =>
    simp only [be, List.nil_append, List.cons.injEq, and_true]
    ext i hi
    simp [hi, show i < w by omega]
  | succ n ih =>
    rw [be, ih (by omega), be]
    simp only [List.cons_append, List.cons.injEq, and_true]
    ext i hi
    have e : 8 * (n + 1) + i - 8 = 8 * n + i := by omega
    simp [e, show 8 * (n + 1) + i < w by omega, show ¬ (8 * (n + 1) + i < 8) by omega,
      BitVec.getLsbD_of_ge b (8 * (n + 1) + i) (by omega), BitVec.getLsbD_eq_getElem (x := x) (i := 8 * n + i) (by omega)]

/-- The bytes of a joined value are the bytes it was joined from, when they fit. -/
theorem be_frombe (w : Nat) (bs : List Byte) (h : 8 * bs.length ≤ w) : be (frombe w bs) bs.length = bs := by
  induction bs using List.reverseRecOn with
  | nil => rfl
  | append_singleton bs b ih =>
    simp only [List.length_append, List.length_cons, List.length_nil] at h ⊢
    rw [frombe_append, be_shift_or _ _ _ (by omega), ih (by omega)]

theorem getElem?_be {w : Nat} (v : BitVec w) (n j : Nat) :
    (be v n)[j]? = if j < n then some (v.extractLsb' (8 * (n - 1 - j)) 8) else none := by
  induction n generalizing j with
  | zero => simp [be]
  | succ n ih =>
    cases j with
    | zero => simp [be]
    | succ j => simp [be, ih, show n - (j + 1) = n - 1 - j by omega]

/-- Values of at most `n` bytes with the same bytes are equal. -/
theorem be_inj {w : Nat} (u v : BitVec w) (n : Nat) (hw : w ≤ 8 * n) (h : be u n = be v n) : u = v := by
  apply BitVec.eq_of_getLsbD_eq
  intro i hi
  have hk : n - 1 - i / 8 < n := by omega
  have e := congrArg (fun l => l[n - 1 - i / 8]?) h
  simp only [getElem?_be, hk, if_true, Option.some.injEq] at e
  have hb := congrArg (fun b => b.getLsbD (i % 8)) e
  have hm : i % 8 < 8 := Nat.mod_lt _ (by omega)
  have hs : 8 * (n - 1 - (n - 1 - i / 8)) + i % 8 = i := by omega
  simpa only [BitVec.getLsbD_extractLsb', hm, hs, decide_true, Bool.true_and] using hb

/-- A value joined from its own bytes is the value. -/
theorem frombe_be {w : Nat} (v : BitVec w) (n : Nat) (hw : w = 8 * n) : frombe w (be v n) = v := by
  apply be_inj _ _ n (by omega)
  have := be_frombe w (be v n) (by simp [hw])
  simpa only [length_be] using this

theorem bswap32_bswap32 (v : BitVec 32) : bswap32 (bswap32 v) = v := by
  have h : be (bswap32 v) 4 = (be v 4).reverse := be_frombe 32 (be v 4).reverse (by simp)
  simp only [bswap32] at h ⊢
  rw [h, List.reverse_reverse, frombe_be v 4 rfl]

end Sys2Proof.Machine
end

