-- ==== Sys2Proof/Laws/Flags.lean ====
section
/-! SUPPORT. What the computations in place of flags give: truth values, the ordering key, the ordering. -/

namespace Sys2Proof.Machine

@[simp] theorem boolX_true : boolX true = 1 := rfl

@[simp] theorem boolX_false : boolX false = 0 := rfl

@[simp] theorem orderKey_false (v : NetAddr) : orderKey false v = v := rfl

@[simp] theorem orderKey_true (v : NetAddr) : orderKey true v = bswap32 v := rfl

/-- Under either key, different addresses have different keys. -/
theorem orderKey_inj {le : Bool} {v w : NetAddr} (h : orderKey le v = orderKey le w) : v = w := by
  cases le
  · exact h
  · rw [← bswap32_bswap32 v, ← bswap32_bswap32 w]
    exact congrArg bswap32 h

theorem isBefore_iff (le : Bool) (v w : NetAddr) :
    isBefore le v w = true ↔ (orderKey le v).toNat < (orderKey le w).toNat := by
  simp [isBefore]

end Sys2Proof.Machine
end

