-- ==== Sys2Proof/Laws/HostPort.lean ====
section
/-! SUPPORT. What a step and the host's moves do, said once: a proof about a run cites these and does not unfold them. -/

namespace Sys2Proof.Machine

theorem issue_of_decode {w : CmdWord} {i : Instr} (h : decode w = .ok i) (s : State) : issue w s = exec i s := by
  simp only [issue, h]

theorem issue_of_illegal {w : CmdWord} {e : Illegal} (h : decode w = .error e) (s : State) :
    issue w s = .next (s.complete .illegalCmd) := by
  simp only [issue, h]; rfl

/-- Everything issuing a word can do. -/
theorem issue_cases (w : CmdWord) (s : State) :
    (∃ i, decode w = .ok i ∧ issue w s = exec i s) ∨
      (∃ e, decode w = .error e ∧ issue w s = .next (s.complete .illegalCmd)) := by
  rcases h : decode w with e | i
  · exact .inr ⟨e, rfl, issue_of_illegal h s⟩
  · exact .inl ⟨i, rfl, issue_of_decode h s⟩

theorem hostRead_of_target {sel : BitVec 8} {t : HostTarget} (h : selectorTarget sel = some t) (s : State) :
    hostRead sel s = .next { s with answer := .value (readTarget s t) } := by
  simp only [hostRead, h]

theorem hostRead_of_unassigned {sel : BitVec 8} (h : selectorTarget sel = none) (s : State) :
    hostRead sel s = .next s.answerNothing := by
  simp only [hostRead, h]

/-- Everything a host write can do when it answers a next state. -/
theorem hostWrite_next {sel : BitVec 8} {v : HostValue} {s t : State} (h : hostWrite sel v s = .next t) :
    (selectorTarget sel = none ∧ t = s.answerNothing) ∨
      ∃ g s', selectorTarget sel = some g ∧ writeTarget s g v = some s' ∧ t = s'.answerNothing := by
  unfold hostWrite at h
  rcases hs : selectorTarget sel with _ | g
  · rw [hs] at h; cases h; exact .inl ⟨rfl, rfl⟩
  · rw [hs] at h
    rcases hw : writeTarget s g v with _ | s'
    · simp only [hw] at h; cases h
    · simp only [hw] at h; cases h; exact .inr ⟨g, s', rfl, hw, rfl⟩

/-- Two assigned selectors that name the same piece of state are the same selector. -/
theorem selectorTarget_inj {a b : BitVec 8} {t : HostTarget} (ha : selectorTarget a = some t)
    (hb : selectorTarget b = some t) : a = b := by
  apply BitVec.eq_of_toNat_eq
  unfold selectorTarget at ha hb
  simp only at ha hb
  split_ifs at ha <;> cases ha <;> split_ifs at hb <;> simp at hb <;> omega

@[simp] theorem step_withFetchWord (s : State) (nbits w : Nat) :
    step (s.withFetchWord nbits w) = issue (tableWord nbits w) s := rfl

/-- Everything a step can do: nothing, or the first pending move on the state without it. -/
theorem step_cases (s : State) :
    (s.pending = [] ∧ step s = .next s) ∨
      ∃ m rest, s.pending = m :: rest ∧ step s = performMove m { s with pending := rest } := by
  unfold step
  rcases h : s.pending with _ | ⟨m, rest⟩
  · exact .inl ⟨rfl, rfl⟩
  · exact .inr ⟨m, rest, rfl, rfl⟩

end Sys2Proof.Machine
end

