-- ==== Sys2Proof/Laws/Ops.lean ====
section
/-! SUPPORT. What each shared operation can do, said once: completing, raising, the bound of an access, range-checked
arithmetic. A proof about a meaning cites these and never unfolds them. -/

namespace Sys2Proof.Machine

theorem finish_eq (s : State) : finish s = .next (s.complete .ok) := rfl

theorem raise_eq (c : Code) (s : State) : raise c s = .next (s.complete c) := rfl

theorem finish_next {s t : State} (h : finish s = .next t) : t = s.complete .ok := by
  cases h; rfl

theorem raise_next {c : Code} {s t : State} (h : raise c s = .next t) : t = s.complete c := by
  cases h; rfl

theorem inBuffer_of_le {off n : Nat} (k : StepResult) (h : off + n ≤ 28) : inBuffer off n k = k := if_pos h

theorem inBuffer_of_gt {off n : Nat} (k : StepResult) (h : 28 < off + n) :
    inBuffer off n k = .fault .outsideWireBuffer := if_neg (by omega)

/-- An access that answers a next state was inside the buffer, and what it guarded answered it. -/
theorem inBuffer_next {off n : Nat} {k : StepResult} {t : State} (h : inBuffer off n k = .next t) :
    off + n ≤ 28 ∧ k = .next t := by
  unfold inBuffer at h
  split at h
  · exact ⟨‹_›, h⟩
  · cases h

theorem rangeCheck_in_range {r : Int} (h0 : 0 ≤ r) (h1 : r ≤ 0xFFFFFFFF) : rangeCheck r = .ok (BitVec.ofInt 32 r) := by
  simp [rangeCheck, show ¬ r > 0xFFFFFFFF by omega, show ¬ r < 0 by omega]

theorem rangeCheck_above {r : Int} (h : r > 0xFFFFFFFF) : rangeCheck r = .error .overflow := by
  simp [rangeCheck, show r > 0xFFFFFFFF from h]

theorem rangeCheck_below {r : Int} (h : r < 0) : rangeCheck r = .error .underflow := by
  simp [rangeCheck, show ¬ r > 0xFFFFFFFF by omega, h]

/-- The 32-bit value of an exact result in range is the result. -/
theorem toNat_ofInt_in_range {r : Int} (h0 : 0 ≤ r) (h1 : r ≤ 0xFFFFFFFF) : ((BitVec.ofInt 32 r).toNat : Int) = r := by
  rw [BitVec.toNat_ofInt]
  omega

theorem arith_in_range {r : Int} (wr : NetAddr → State) (s : State) (h0 : 0 ≤ r) (h1 : r ≤ 0xFFFFFFFF) :
    arith r wr s = .next ((wr (BitVec.ofInt 32 r)).complete .ok) := by
  simp [arith, rangeCheck_in_range h0 h1, finish_eq]

theorem arith_above {r : Int} (wr : NetAddr → State) (s : State) (h : r > 0xFFFFFFFF) :
    arith r wr s = .next (s.complete .overflow) := by
  simp [arith, rangeCheck_above h, raise_eq]

theorem arith_below {r : Int} (wr : NetAddr → State) (s : State) (h : r < 0) :
    arith r wr s = .next (s.complete .underflow) := by
  simp [arith, rangeCheck_below h, raise_eq]

/-- Everything range-checked arithmetic can do. -/
theorem arith_cases (r : Int) (wr : NetAddr → State) (s : State) :
    (0 ≤ r ∧ r ≤ 0xFFFFFFFF ∧ arith r wr s = .next ((wr (BitVec.ofInt 32 r)).complete .ok)) ∨
    (r > 0xFFFFFFFF ∧ arith r wr s = .next (s.complete .overflow)) ∨
    (r < 0 ∧ arith r wr s = .next (s.complete .underflow)) := by
  by_cases h : r > 0xFFFFFFFF
  · exact .inr (.inl ⟨h, arith_above wr s h⟩)
  · by_cases h0 : r < 0
    · exact .inr (.inr ⟨h0, arith_below wr s h0⟩)
    · exact .inl ⟨by omega, by omega, arith_in_range wr s (by omega) (by omega)⟩

end Sys2Proof.Machine
end

