-- ==== Sys2Proof/Laws/PerInstr.lean ====
section
/-! SUPPORT. The family CmdByte, one lemma per constructor of Instr: the top byte of a command's word is its command
code, so that the decoder takes the command's row of R62 (R61, R63). -/

namespace Sys2Proof.Laws.CmdByte

/-- The `cmd` field of the encoded command is the command's code. -/
def Statement (i : Instr) : Prop := cmdField (encode i) = i.cmd

theorem xli (d : XReg) (imm : BitVec 16) : Statement (.xli d imm) := cmdField_wordI _ _ _
theorem xlih (d : XReg) (imm : BitVec 16) : Statement (.xlih d imm) := cmdField_wordI _ _ _
theorem xmov (d a : XReg) : Statement (.xmov d a) := cmdField_wordR _ _ _ _
theorem ldb (r : XReg) (off : BitVec 5) : Statement (.ldb r off) := cmdField_wordM _ _ _ _
theorem stb (r : XReg) (off : BitVec 5) : Statement (.stb r off) := cmdField_wordM _ _ _ _
theorem nmov (d a : NReg) : Statement (.nmov d a) := cmdField_wordR _ _ _ _
theorem nfromx (d : NReg) (a : XReg) : Statement (.nfromx d a) := cmdField_wordR _ _ _ _
theorem ntox (d : XReg) (a : NReg) : Statement (.ntox d a) := cmdField_wordR _ _ _ _
theorem nld (r : NReg) (off : BitVec 5) : Statement (.nld r off) := cmdField_wordM _ _ _ _
theorem nst (r : NReg) (off : BitVec 5) : Statement (.nst r off) := cmdField_wordM _ _ _ _
theorem nnot (d a : NReg) : Statement (.nnot d a) := cmdField_wordR _ _ _ _
theorem nand (d a b : NReg) : Statement (.nand d a b) := cmdField_wordR _ _ _ _
theorem nor (d a b : NReg) : Statement (.nor d a b) := cmdField_wordR _ _ _ _
theorem nxor (d a b : NReg) : Statement (.nxor d a b) := cmdField_wordR _ _ _ _
theorem nadd (d a : NReg) (b : XReg) : Statement (.nadd d a b) := cmdField_wordR _ _ _ _
theorem nsub (d a : NReg) (b : XReg) : Statement (.nsub d a b) := cmdField_wordR _ _ _ _
theorem ninc (d : NReg) : Statement (.ninc d) := cmdField_wordR _ _ _ _
theorem ndec (d : NReg) : Statement (.ndec d) := cmdField_wordR _ _ _ _
theorem nincp (d a : NReg) : Statement (.nincp d a) := cmdField_wordR _ _ _ _
theorem ndecp (d a : NReg) : Statement (.ndecp d a) := cmdField_wordR _ _ _ _
theorem neq (d : XReg) (a b : NReg) : Statement (.neq d a b) := cmdField_wordR _ _ _ _
theorem nlt (d : XReg) (a b : NReg) : Statement (.nlt d a b) := cmdField_wordR _ _ _ _
theorem nismask (d : XReg) (a : NReg) : Statement (.nismask d a) := cmdField_wordR _ _ _ _
theorem nnet (d a b : NReg) : Statement (.nnet d a b) := cmdField_wordR _ _ _ _
theorem nbcast (d a b : NReg) : Statement (.nbcast d a b) := cmdField_wordR _ _ _ _
theorem hmov (d a : HReg) : Statement (.hmov d a) := cmdField_wordR _ _ _ _
theorem hld (r : HReg) (off : BitVec 5) : Statement (.hld r off) := cmdField_wordM _ _ _ _
theorem hldl (r : HReg) (off : BitVec 5) (cnt : BitVec 4) : Statement (.hldl r off cnt) := cmdField_wordM _ _ _ _
theorem hst (r : HReg) (off : BitVec 5) : Statement (.hst r off) := cmdField_wordM _ _ _ _
theorem heq (d : XReg) (a b : HReg) : Statement (.heq d a b) := cmdField_wordR _ _ _ _
theorem hne (d : XReg) (a b : HReg) : Statement (.hne d a b) := cmdField_wordR _ _ _ _
theorem hisnull (d : XReg) (a : HReg) : Statement (.hisnull d a) := cmdField_wordR _ _ _ _
theorem hsetbc (d : HReg) : Statement (.hsetbc d) := cmdField_wordR _ _ _ _
theorem finit : Statement (.finit) := cmdField_wordR _ _ _ _
theorem fenc : Statement (.fenc) := cmdField_wordR _ _ _ _
theorem fdec : Statement (.fdec) := cmdField_wordR _ _ _ _
theorem fshtype (a : XReg) : Statement (.fshtype a) := cmdField_wordR _ _ _ _
theorem fsptype (a : XReg) : Statement (.fsptype a) := cmdField_wordR _ _ _ _
theorem fshlen (a : XReg) : Statement (.fshlen a) := cmdField_wordR _ _ _ _
theorem fsplen (a : XReg) : Statement (.fsplen a) := cmdField_wordR _ _ _ _
theorem fsoper (a : XReg) : Statement (.fsoper a) := cmdField_wordR _ _ _ _
theorem fssha (a : HReg) : Statement (.fssha a) := cmdField_wordR _ _ _ _
theorem fsspa (a : NReg) : Statement (.fsspa a) := cmdField_wordR _ _ _ _
theorem fstha (a : HReg) : Statement (.fstha a) := cmdField_wordR _ _ _ _
theorem fstpa (a : NReg) : Statement (.fstpa a) := cmdField_wordR _ _ _ _
theorem fghtype (d : XReg) : Statement (.fghtype d) := cmdField_wordR _ _ _ _
theorem fgptype (d : XReg) : Statement (.fgptype d) := cmdField_wordR _ _ _ _
theorem fghlen (d : XReg) : Statement (.fghlen d) := cmdField_wordR _ _ _ _
theorem fgplen (d : XReg) : Statement (.fgplen d) := cmdField_wordR _ _ _ _
theorem fgoper (d : XReg) : Statement (.fgoper d) := cmdField_wordR _ _ _ _
theorem fgsha (d : HReg) : Statement (.fgsha d) := cmdField_wordR _ _ _ _
theorem fgspa (d : NReg) : Statement (.fgspa d) := cmdField_wordR _ _ _ _
theorem fgtha (d : HReg) : Statement (.fgtha d) := cmdField_wordR _ _ _ _
theorem fgtpa (d : NReg) : Statement (.fgtpa d) := cmdField_wordR _ _ _ _

end Sys2Proof.Laws.CmdByte
end

