-- ==== Sys2Proof/Laws/State.lean ====
section
/-! SUPPORT. One lemma per field per update of State, and what a register read gives after a register write. -/

namespace Sys2Proof.Machine

/-! ### setX -/

@[simp] theorem State.setX_n (s : State) (r : XReg) (v : Scalar) : (s.setX r v).n = s.n := rfl
@[simp] theorem State.setX_h (s : State) (r : XReg) (v : Scalar) : (s.setX r v).h = s.h := rfl
@[simp] theorem State.setX_f (s : State) (r : XReg) (v : Scalar) : (s.setX r v).f = s.f := rfl
@[simp] theorem State.setX_wb (s : State) (r : XReg) (v : Scalar) : (s.setX r v).wb = s.wb := rfl
@[simp] theorem State.setX_st (s : State) (r : XReg) (v : Scalar) : (s.setX r v).st = s.st := rfl
@[simp] theorem State.setX_pending (s : State) (r : XReg) (v : Scalar) : (s.setX r v).pending = s.pending := rfl
@[simp] theorem State.setX_answer (s : State) (r : XReg) (v : Scalar) : (s.setX r v).answer = s.answer := rfl

/-! ### setN -/

@[simp] theorem State.setN_x (s : State) (r : NReg) (v : NetAddr) : (s.setN r v).x = s.x := rfl
@[simp] theorem State.setN_h (s : State) (r : NReg) (v : NetAddr) : (s.setN r v).h = s.h := rfl
@[simp] theorem State.setN_f (s : State) (r : NReg) (v : NetAddr) : (s.setN r v).f = s.f := rfl
@[simp] theorem State.setN_wb (s : State) (r : NReg) (v : NetAddr) : (s.setN r v).wb = s.wb := rfl
@[simp] theorem State.setN_st (s : State) (r : NReg) (v : NetAddr) : (s.setN r v).st = s.st := rfl
@[simp] theorem State.setN_pending (s : State) (r : NReg) (v : NetAddr) : (s.setN r v).pending = s.pending := rfl
@[simp] theorem State.setN_answer (s : State) (r : NReg) (v : NetAddr) : (s.setN r v).answer = s.answer := rfl

/-! ### setH -/

@[simp] theorem State.setH_x (s : State) (r : HReg) (v : HwAddr) : (s.setH r v).x = s.x := rfl
@[simp] theorem State.setH_n (s : State) (r : HReg) (v : HwAddr) : (s.setH r v).n = s.n := rfl
@[simp] theorem State.setH_f (s : State) (r : HReg) (v : HwAddr) : (s.setH r v).f = s.f := rfl
@[simp] theorem State.setH_wb (s : State) (r : HReg) (v : HwAddr) : (s.setH r v).wb = s.wb := rfl
@[simp] theorem State.setH_st (s : State) (r : HReg) (v : HwAddr) : (s.setH r v).st = s.st := rfl
@[simp] theorem State.setH_pending (s : State) (r : HReg) (v : HwAddr) : (s.setH r v).pending = s.pending := rfl
@[simp] theorem State.setH_answer (s : State) (r : HReg) (v : HwAddr) : (s.setH r v).answer = s.answer := rfl

/-! ### setF -/

@[simp] theorem State.setF_x (s : State) (g : Frame) : (s.setF g).x = s.x := rfl
@[simp] theorem State.setF_n (s : State) (g : Frame) : (s.setF g).n = s.n := rfl
@[simp] theorem State.setF_h (s : State) (g : Frame) : (s.setF g).h = s.h := rfl
@[simp] theorem State.setF_wb (s : State) (g : Frame) : (s.setF g).wb = s.wb := rfl
@[simp] theorem State.setF_st (s : State) (g : Frame) : (s.setF g).st = s.st := rfl
@[simp] theorem State.setF_pending (s : State) (g : Frame) : (s.setF g).pending = s.pending := rfl
@[simp] theorem State.setF_answer (s : State) (g : Frame) : (s.setF g).answer = s.answer := rfl

/-! ### memWrite -/

@[simp] theorem State.memWrite_x (s : State) (o : Nat) (bs : List Byte) : (s.memWrite o bs).x = s.x := rfl
@[simp] theorem State.memWrite_n (s : State) (o : Nat) (bs : List Byte) : (s.memWrite o bs).n = s.n := rfl
@[simp] theorem State.memWrite_h (s : State) (o : Nat) (bs : List Byte) : (s.memWrite o bs).h = s.h := rfl
@[simp] theorem State.memWrite_f (s : State) (o : Nat) (bs : List Byte) : (s.memWrite o bs).f = s.f := rfl
@[simp] theorem State.memWrite_st (s : State) (o : Nat) (bs : List Byte) : (s.memWrite o bs).st = s.st := rfl
@[simp] theorem State.memWrite_pending (s : State) (o : Nat) (bs : List Byte) : (s.memWrite o bs).pending = s.pending := rfl
@[simp] theorem State.memWrite_answer (s : State) (o : Nat) (bs : List Byte) : (s.memWrite o bs).answer = s.answer := rfl

@[simp] theorem State.setF_f (s : State) (g : Frame) : (s.setF g).f = g := rfl
@[simp] theorem State.memWrite_wb (s : State) (o : Nat) (bs : List Byte) : (s.memWrite o bs).wb = writeBytes s.wb o bs := rfl

/-! ### complete -/

@[simp] theorem State.complete_x (s : State) (c : Code) : (s.complete c).x = s.x := rfl
@[simp] theorem State.complete_n (s : State) (c : Code) : (s.complete c).n = s.n := rfl
@[simp] theorem State.complete_h (s : State) (c : Code) : (s.complete c).h = s.h := rfl
@[simp] theorem State.complete_f (s : State) (c : Code) : (s.complete c).f = s.f := rfl
@[simp] theorem State.complete_wb (s : State) (c : Code) : (s.complete c).wb = s.wb := rfl
@[simp] theorem State.complete_st (s : State) (c : Code) : (s.complete c).st = c := rfl
@[simp] theorem State.complete_pending (s : State) (c : Code) : (s.complete c).pending = s.pending := rfl
@[simp] theorem State.complete_answer (s : State) (c : Code) : (s.complete c).answer = .code c := rfl

/-! ### Register and byte reads after an update -/

@[simp] theorem State.getX_setN (s : State) (r : NReg) (v : NetAddr) (q : XReg) : (s.setN r v).getX q = s.getX q := rfl
@[simp] theorem State.getX_setH (s : State) (r : HReg) (v : HwAddr) (q : XReg) : (s.setH r v).getX q = s.getX q := rfl
@[simp] theorem State.getX_setF (s : State) (g : Frame) (q : XReg) : (s.setF g).getX q = s.getX q := rfl
@[simp] theorem State.getX_memWrite (s : State) (o : Nat) (bs : List Byte) (q : XReg) : (s.memWrite o bs).getX q = s.getX q := rfl
@[simp] theorem State.getX_complete (s : State) (c : Code) (q : XReg) : (s.complete c).getX q = s.getX q := rfl

@[simp] theorem State.getN_setX (s : State) (r : XReg) (v : Scalar) (q : NReg) : (s.setX r v).getN q = s.getN q := rfl
@[simp] theorem State.getN_setH (s : State) (r : HReg) (v : HwAddr) (q : NReg) : (s.setH r v).getN q = s.getN q := rfl
@[simp] theorem State.getN_setF (s : State) (g : Frame) (q : NReg) : (s.setF g).getN q = s.getN q := rfl
@[simp] theorem State.getN_memWrite (s : State) (o : Nat) (bs : List Byte) (q : NReg) : (s.memWrite o bs).getN q = s.getN q := rfl
@[simp] theorem State.getN_complete (s : State) (c : Code) (q : NReg) : (s.complete c).getN q = s.getN q := rfl

@[simp] theorem State.getH_setX (s : State) (r : XReg) (v : Scalar) (q : HReg) : (s.setX r v).getH q = s.getH q := rfl
@[simp] theorem State.getH_setN (s : State) (r : NReg) (v : NetAddr) (q : HReg) : (s.setN r v).getH q = s.getH q := rfl
@[simp] theorem State.getH_setF (s : State) (g : Frame) (q : HReg) : (s.setF g).getH q = s.getH q := rfl
@[simp] theorem State.getH_memWrite (s : State) (o : Nat) (bs : List Byte) (q : HReg) : (s.memWrite o bs).getH q = s.getH q := rfl
@[simp] theorem State.getH_complete (s : State) (c : Code) (q : HReg) : (s.complete c).getH q = s.getH q := rfl

@[simp] theorem State.byte_setX (s : State) (r : XReg) (v : Scalar) (q : Nat) : (s.setX r v).byte q = s.byte q := rfl
@[simp] theorem State.byte_setN (s : State) (r : NReg) (v : NetAddr) (q : Nat) : (s.setN r v).byte q = s.byte q := rfl
@[simp] theorem State.byte_setH (s : State) (r : HReg) (v : HwAddr) (q : Nat) : (s.setH r v).byte q = s.byte q := rfl
@[simp] theorem State.byte_setF (s : State) (g : Frame) (q : Nat) : (s.setF g).byte q = s.byte q := rfl
@[simp] theorem State.byte_complete (s : State) (c : Code) (q : Nat) : (s.complete c).byte q = s.byte q := rfl

/-- A register read after a write of its own file. -/
theorem State.getX_setX (s : State) (r q : XReg) (v : Scalar) : (s.setX r v).getX q = if q = r then v else s.getX q := by
  simp [State.setX, State.getX, Vector.getElem_set, Fin.ext_iff, eq_comm]

@[simp] theorem State.getX_setX_self (s : State) (r : XReg) (v : Scalar) : (s.setX r v).getX r = v := by
  simp [State.getX_setX]

@[simp] theorem State.getX_setX_of_ne (s : State) (r q : XReg) (v : Scalar) (h : q ≠ r) :
    (s.setX r v).getX q = s.getX q := by
  simp [State.getX_setX, h]

/-- A register read after a write of its own file. -/
theorem State.getN_setN (s : State) (r q : NReg) (v : NetAddr) : (s.setN r v).getN q = if q = r then v else s.getN q := by
  simp [State.setN, State.getN, Vector.getElem_set, Fin.ext_iff, eq_comm]

@[simp] theorem State.getN_setN_self (s : State) (r : NReg) (v : NetAddr) : (s.setN r v).getN r = v := by
  simp [State.getN_setN]

@[simp] theorem State.getN_setN_of_ne (s : State) (r q : NReg) (v : NetAddr) (h : q ≠ r) :
    (s.setN r v).getN q = s.getN q := by
  simp [State.getN_setN, h]

/-- A register read after a write of its own file. -/
theorem State.getH_setH (s : State) (r q : HReg) (v : HwAddr) : (s.setH r v).getH q = if q = r then v else s.getH q := by
  simp [State.setH, State.getH, Vector.getElem_set, Fin.ext_iff, eq_comm]

@[simp] theorem State.getH_setH_self (s : State) (r : HReg) (v : HwAddr) : (s.setH r v).getH r = v := by
  simp [State.getH_setH]

@[simp] theorem State.getH_setH_of_ne (s : State) (r q : HReg) (v : HwAddr) (h : q ≠ r) :
    (s.setH r v).getH q = s.getH q := by
  simp [State.getH_setH, h]

@[simp] theorem State.getX_answerField (s : State) (x : HostAnswer) (q : XReg) : State.getX { s with answer := x } q = s.getX q := rfl
@[simp] theorem State.getX_pendingField (s : State) (x : List HostMove) (q : XReg) : State.getX { s with pending := x } q = s.getX q := rfl
@[simp] theorem State.getN_answerField (s : State) (x : HostAnswer) (q : NReg) : State.getN { s with answer := x } q = s.getN q := rfl
@[simp] theorem State.getN_pendingField (s : State) (x : List HostMove) (q : NReg) : State.getN { s with pending := x } q = s.getN q := rfl
@[simp] theorem State.getH_answerField (s : State) (x : HostAnswer) (q : HReg) : State.getH { s with answer := x } q = s.getH q := rfl
@[simp] theorem State.getH_pendingField (s : State) (x : List HostMove) (q : HReg) : State.getH { s with pending := x } q = s.getH q := rfl
@[simp] theorem State.byte_answerField (s : State) (x : HostAnswer) (q : Nat) : State.byte { s with answer := x } q = s.byte q := rfl
@[simp] theorem State.byte_pendingField (s : State) (x : List HostMove) (q : Nat) : State.byte { s with pending := x } q = s.byte q := rfl

end Sys2Proof.Machine
end

