-- ==== Sys2Proof/Tests/Slice0.lean ====
section
/-! SUPPORT. The model's own tests. Words, start states and results are those of 95_test_vectors.md; the name of a test
ends in the identifier of its row there. The witnesses at the end show states and operands that meet the hypotheses of
the obligations. -/

namespace Sys2Proof.Tests

open Sys2Proof.Machine Sys2Proof.Safety

/-- A result is a next state that passes a check. -/
def after (r : StepResult) (p : State → Bool) : Bool :=
  match r with
  | .next t => p t
  | .fault _ => false
  | .refused _ => false

/-! ### Well-formedness refuses what R58 excludes -/

theorem test_wf_ldb : (Instr.ldb 0 28).wf = false ∧ (Instr.ldb 0 27).wf = true := by decide
theorem test_wf_stb : (Instr.stb 0 28).wf = false ∧ (Instr.stb 0 27).wf = true := by decide
theorem test_wf_nld : (Instr.nld 0 25).wf = false ∧ (Instr.nld 0 24).wf = true := by decide
theorem test_wf_nst : (Instr.nst 0 25).wf = false ∧ (Instr.nst 0 24).wf = true := by decide
theorem test_wf_hld : (Instr.hld 0 23).wf = false ∧ (Instr.hld 0 22).wf = true := by decide
theorem test_wf_hst : (Instr.hst 0 23).wf = false ∧ (Instr.hst 0 22).wf = true := by decide
theorem test_wf_hldl : (Instr.hldl 0 14 15).wf = false ∧ (Instr.hldl 0 13 15).wf = true := by decide

/-! ### Decoding: a word of every command, as the spec writes it beside the assembly text -/

theorem test_decode_support :
    [0x01100800, 0x02700000, 0x03540000, 0x0400001B, 0x0520001B].map decode =
    [.ok (.xli 1 0x0800), .ok (.xlih 7 0), .ok (.xmov 5 4), .ok (.ldb 0 27), .ok (.stb 2 27)] := by decide

theorem test_decode_network_move :
    [0x10210000, 0x11010000, 0x12770000, 0x13000001, 0x14500018, 0x15210000, 0x16445000, 0x17201000,
     0x18201000].map decode =
    [.ok (.nmov 2 1), .ok (.nfromx 0 1), .ok (.ntox 7 7), .ok (.nld 0 1), .ok (.nst 5 24),
     .ok (.nnot 2 1), .ok (.nand 4 4 5), .ok (.nor 2 0 1), .ok (.nxor 2 0 1)] := by decide

theorem test_decode_network_arithmetic :
    [0x20201000, 0x21201000, 0x22500000, 0x23500000, 0x24210000, 0x25430000, 0x26421000, 0x27012000,
     0x28110000, 0x29201000, 0x2A101000].map decode =
    [.ok (.nadd 2 0 1), .ok (.nsub 2 0 1), .ok (.ninc 5), .ok (.ndec 5), .ok (.nincp 2 1),
     .ok (.ndecp 4 3), .ok (.neq 4 2 1), .ok (.nlt 0 1 2), .ok (.nismask 1 1), .ok (.nnet 2 0 1),
     .ok (.nbcast 1 0 1)] := by decide

theorem test_decode_hardware :
    [0x30200000, 0x31300016, 0x32100F0D, 0x33100016, 0x34022000, 0x35001000, 0x36320000, 0x37300000].map decode =
    [.ok (.hmov 2 0), .ok (.hld 3 22), .ok (.hldl 1 13 15), .ok (.hst 1 22), .ok (.heq 0 2 2),
     .ok (.hne 0 0 1), .ok (.hisnull 3 2), .ok (.hsetbc 3)] := by decide

theorem test_decode_frame_control :
    [0x40000000, 0x41000000, 0x42000000].map decode =
    [.ok (.finit), .ok (.fenc), .ok (.fdec)] := by decide

theorem test_decode_frame_set :
    [0x50010000, 0x51010000, 0x52020000, 0x53020000, 0x54030000, 0x55000000, 0x56000000, 0x57010000,
     0x58010000].map decode =
    [.ok (.fshtype 1), .ok (.fsptype 1), .ok (.fshlen 2), .ok (.fsplen 2), .ok (.fsoper 3),
     .ok (.fssha 0), .ok (.fsspa 0), .ok (.fstha 1), .ok (.fstpa 1)] := by decide

theorem test_decode_frame_get :
    [0x60000000, 0x61100000, 0x62200000, 0x63300000, 0x64700000, 0x65100000, 0x66200000, 0x67200000,
     0x68300000].map decode =
    [.ok (.fghtype 0), .ok (.fgptype 1), .ok (.fghlen 2), .ok (.fgplen 3), .ok (.fgoper 7),
     .ok (.fgsha 1), .ok (.fgspa 2), .ok (.fgtha 2), .ok (.fgtpa 3)] := by decide

/-! ### Illegal words (section 2.10), by the case of R66 -/

theorem test_illegal_reserved :
    ([0x00000000, 0xFFFFFFFF, 0x06000000, 0x19000000, 0x2B000000, 0x38000000, 0x43000000, 0x59010000,
      0x69000000, 0x70000000] : List CmdWord).all (fun w => decode w == .error .reservedCmd) = true := by decide

theorem test_illegal_must_be_zero :
    ([0x10210001, 0x10211000, 0x22510000, 0x40100000, 0x41000800, 0x50110000, 0x60010000, 0x01110800,
      0x04301007, 0x04300027, 0x04300107] : List CmdWord).all (fun w => decode w == .error .mustBeZero) = true := by decide

theorem test_illegal_register_index :
    ([0x10810000, 0x03580000, 0x20209000, 0x30400000, 0x34004000, 0x55040000, 0x65F00000] : List CmdWord).all (fun w => decode w == .error .registerIndex) = true := by decide

theorem test_illegal_offset_bound :
    ([0x0430001C, 0x0530001F, 0x13200019, 0x14000019, 0x31100017, 0x33100017, 0x32000F0E] : List CmdWord).all (fun w => decode w == .error .offsetBound) = true := by decide

/-- R185: the bound of `HLDL h0, 27, 3` is found before its count. -/
theorem test_illegal_before_short_list :
    after (issue 0x3200031B State.reset) (fun t => t.st == .illegalCmd) = true := by decide

/-- A word the table numbers, given by the host's view of the decoder. -/
theorem test_table_word : decodeTableWord 32 0x20201000 = some (.nadd 2 0 1) ∧ decodeTableWord 32 0x20201001 = none := by
  decide

/-! ### Commands: support -/

theorem test_xli_V1 : after (issue 0x01100800 (State.reset.setX 1 0xDEADBEEF))
    (fun t => t.getX 1 == 0x00000800 && t.st == .ok) = true := by decide

theorem test_xlih_V4 : after (issue 0x02700000 (State.reset.setX 7 0xFFFFFFFF))
    (fun t => t.getX 7 == 0x0000FFFF && t.st == .ok) = true := by decide

theorem test_xmov_V5 : after (issue 0x03540000 (State.reset.setX 4 0x12345678))
    (fun t => t.getX 5 == 0x12345678 && t.st == .ok) = true := by decide

theorem test_ldb_V8 : after (issue 0x0400001B (State.reset.memWrite 27 [0xff]))
    (fun t => t.getX 0 == 0x000000FF && t.st == .ok) = true := by decide

theorem test_stb_V10 : after (issue 0x0520001B (State.reset.setX 2 0xFFFFFF7F))
    (fun t => t.memRead 27 1 == [0x7f] && t.st == .ok) = true := by decide

/-! ### Commands: network move -/

theorem test_nmov_V20 : after (issue 0x10210000 (State.reset.setN 1 0x0A000001))
    (fun t => t.getN 2 == 0x0A000001 && t.st == .ok) = true := by decide

theorem test_nfromx_V21 : after (issue 0x11010000 (State.reset.setX 1 0xC0A80139))
    (fun t => t.getN 0 == 0xC0A80139 && t.st == .ok) = true := by decide

theorem test_ntox_V23 : after (issue 0x12770000 (State.reset.setN 7 0x80000001))
    (fun t => t.getX 7 == 0x80000001 && t.st == .ok) = true := by decide

theorem test_nld_V26 : after (issue 0x13000001 (State.reset.memWrite 1 [0xde, 0xad, 0xbe, 0xef]))
    (fun t => t.getN 0 == 0xDEADBEEF && t.st == .ok) = true := by decide

theorem test_nst_V28 : after (issue 0x14500018 (State.reset.setN 5 0x01020304))
    (fun t => t.memRead 24 4 == [0x01, 0x02, 0x03, 0x04] && t.st == .ok) = true := by decide

theorem test_nnot_V31 : after (issue 0x15210000 ((State.reset.setN 1 0xFFFFFFFF).setN 2 0x00000005))
    (fun t => t.getN 2 == 0x00000000 && t.st == .ok) = true := by decide

theorem test_nand_V36 : after (issue 0x16445000 ((State.reset.setN 4 0xA5A5A5A5).setN 5 0x0F0F0F0F))
    (fun t => t.getN 4 == 0x05050505 && t.st == .ok) = true := by decide

theorem test_nor_V33 : after (issue 0x17201000 ((State.reset.setN 0 0xC0A80100).setN 1 0x000000FF))
    (fun t => t.getN 2 == 0xC0A801FF && t.st == .ok) = true := by decide

theorem test_nxor_V34 : after (issue 0x18201000 ((State.reset.setN 0 0xC0A80139).setN 1 0xFFFFFFFF))
    (fun t => t.getN 2 == 0x3F57FEC6 && t.st == .ok) = true := by decide

/-! ### Commands: network arithmetic -/

theorem test_nadd_V46 : after (issue 0x20201000 (((State.reset.setN 0 0x80000000).setX 1 0x80000000).setN 2 0x00000007))
    (fun t => t.getN 2 == 0x00000000 && t.st == .ok) = true := by decide

theorem test_nadd_V42 : after (issue 0x20201000 (((State.reset.setN 0 0xFFFFFFFE).setX 1 0x00000002).setN 2 0x00000007))
    (fun t => t.getN 2 == 0x00000007 && t.st == .overflow) = true := by decide

theorem test_nsub_V53 : after (issue 0x21201000 (((State.reset.setN 0 0x80000000).setX 1 0x80000000).setN 2 0x00000007))
    (fun t => t.getN 2 == 0x00000007 && t.st == .overflow) = true := by decide

theorem test_nsub_V55 : after (issue 0x21201000 (((State.reset.setN 0 0x00000005).setX 1 0x00000006).setN 2 0x00000007))
    (fun t => t.getN 2 == 0x00000007 && t.st == .underflow) = true := by decide

theorem test_ninc_V60 : after (issue 0x22500000 (State.reset.setN 5 0xFFFFFFFE))
    (fun t => t.getN 5 == 0xFFFFFFFF && t.st == .ok) = true := by decide

theorem test_ninc_V59 : after (issue 0x22500000 (State.reset.setN 5 0xFFFFFFFF))
    (fun t => t.getN 5 == 0xFFFFFFFF && t.st == .overflow) = true := by decide

theorem test_ndec_V64 : after (issue 0x23500000 (State.reset.setN 5 0x00000001))
    (fun t => t.getN 5 == 0x00000000 && t.st == .ok) = true := by decide

theorem test_ndec_V63 : after (issue 0x23500000 (State.reset.setN 5 0x00000000))
    (fun t => t.getN 5 == 0x00000000 && t.st == .underflow) = true := by decide

theorem test_nincp_V65 : after (issue 0x24210000 (State.reset.setN 1 0x0A000009))
    (fun t => t.getN 1 == 0x0A00000A && t.getN 2 == 0x0A000009 && t.st == .ok) = true := by decide

theorem test_nincp_V67 : after (issue 0x24110000 (State.reset.setN 1 0x0A000009))
    (fun t => t.getN 1 == 0x0A000009 && t.st == .ok) = true := by decide

theorem test_ndecp_V68 : after (issue 0x25430000 (State.reset.setN 3 0xC0A801FF))
    (fun t => t.getN 3 == 0xC0A801FE && t.getN 4 == 0xC0A801FF && t.st == .ok) = true := by decide

theorem test_ndecp_V69 : after (issue 0x25430000 ((State.reset.setN 3 0x00000000).setN 4 0x00000007))
    (fun t => t.getN 4 == 0x00000007 && t.st == .underflow) = true := by decide

theorem test_neq_S4 : after (issue 0x26023000 ((State.reset.setN 2 0x00000001).setN 3 0x00000001))
    (fun t => t.getX 0 == 0x00000001 && t.st == .ok) = true := by decide

theorem test_neq_V82 : after (issue 0x26421000 (((State.reset.setN 1 0x80000000).setN 2 0x00000000).setX 4 9))
    (fun t => t.getX 4 == 0 && t.st == .ok) = true := by decide

theorem test_nismask_S8 : after (issue 0x28110000 ((State.reset.setN 1 0xFFFFFFFE).setX 1 0x00000007))
    (fun t => t.getX 1 == 0x00000000 && t.st == .ok) = true := by decide

theorem test_nismask_S7 : after (issue 0x28110000 ((State.reset.setN 1 0xFFFFFF00).setX 1 0x00000007))
    (fun t => t.getX 1 == 0x00000001 && t.st == .ok) = true := by decide

theorem test_nnet_V102 : after (issue 0x29201000 (((State.reset.setN 0 0xC0A80139).setN 1 0x00000000).setN 2 0x00000007))
    (fun t => t.getN 2 == 0x00000000 && t.st == .ok) = true := by decide

theorem test_nbcast_V108 : after (issue 0x2A101000 ((State.reset.setN 0 0x0A141E28).setN 1 0xFFFFF000))
    (fun t => t.getN 1 == 0x0A141FFF && t.st == .ok) = true := by decide

/-- V84, V86, V88, V89, V90 under `RAW_LE = false`. -/
theorem test_nlt_host_order :
    [isBefore false 0x01000002 0x02000001, isBefore false 0x0A000001 0x0A000002, isBefore false 0 0xFFFFFFFF,
      isBefore false 0x00000100 0x000000FF, isBefore false 0x7FFFFFFF 0x80000000] =
    [true, true, true, false, true] := by decide

/-- The same rows under `RAW_LE = true`. -/
theorem test_nlt_swapped_order :
    [isBefore true 0x01000002 0x02000001, isBefore true 0x0A000001 0x0A000002, isBefore true 0 0xFFFFFFFF,
      isBefore true 0x00000100 0x000000FF, isBefore true 0x7FFFFFFF 0x80000000] =
    [false, true, true, true, false] := by decide

/-! ### Commands: hardware -/

theorem test_hmov_V120 : after (issue 0x30200000 (State.reset.setH 0 0x001B44113AB7))
    (fun t => t.getH 2 == 0x001B44113AB7 && t.st == .ok) = true := by decide

theorem test_hld_V123 : after (issue 0x31300016 (State.reset.memWrite 22 [0x01, 0x02, 0x03, 0x04, 0x05, 0x06]))
    (fun t => t.getH 3 == 0x010203040506 && t.st == .ok) = true := by decide

theorem test_hldl_V130 : after (issue 0x32100F0D (State.reset.memWrite 13 [0x01, 0x02, 0x03, 0x04, 0x05, 0x06]))
    (fun t => t.getH 1 == 0x010203040506 && t.st == .ok) = true := by decide

theorem test_hldl_V127 : after (issue 0x32000500 ((State.reset.memWrite 0 [0xaa, 0xbb, 0xcc, 0xdd, 0xee, 0xff]).setH 0 0x010101010101))
    (fun t => t.getH 0 == 0x010101010101 && t.st == .shortList) = true := by decide

theorem test_hst_V131 : after (issue 0x33100016 (State.reset.setH 1 0x112233445566))
    (fun t => t.memRead 22 6 == [0x11, 0x22, 0x33, 0x44, 0x55, 0x66] && t.st == .ok) = true := by decide

theorem test_heq_V136 : after (issue 0x34022000 ((State.reset.setH 2 0x112233445566).setX 0 0x00000009))
    (fun t => t.getX 0 == 0x00000001 && t.st == .ok) = true := by decide

theorem test_heq_V134 : after (issue 0x34001000 (((State.reset.setH 0 0x112233445566).setH 1 0x912233445566).setX 0 0x00000009))
    (fun t => t.getX 0 == 0x00000000 && t.st == .ok) = true := by decide

theorem test_hne_V137 : after (issue 0x35001000 (((State.reset.setH 0 0x112233445566).setH 1 0x112233445567).setX 0 0x00000009))
    (fun t => t.getX 0 == 0x00000001 && t.st == .ok) = true := by decide

theorem test_hne_V138 : after (issue 0x35001000 (((State.reset.setH 0 0x112233445566).setH 1 0x112233445566).setX 0 0x00000009))
    (fun t => t.getX 0 == 0x00000000 && t.st == .ok) = true := by decide

theorem test_hisnull_V139 : after (issue 0x36320000 (State.reset.setX 3 0x00000009))
    (fun t => t.getX 3 == 0x00000001 && t.st == .ok) = true := by decide

theorem test_hisnull_V141 : after (issue 0x36320000 ((State.reset.setH 2 0x800000000000).setX 3 0x00000009))
    (fun t => t.getX 3 == 0x00000000 && t.st == .ok) = true := by decide

theorem test_hsetbc_V143 : after (issue 0x37300000 State.reset)
    (fun t => t.getH 3 == 0xFFFFFFFFFFFF && t.st == .ok) = true := by decide

/-! ### Commands: frame control -/

theorem test_finit_V160 : after (issue 0x40000000 ((State.reset.setX 0 0x00000001).setF { defaultFrame with oper := 0x0002, sha := 0x000000000005 }))
    (fun t => t.f.oper == 0x0001 && t.f.sha == 0x000000000000 && t.st == .ok) = true := by decide

theorem test_fenc_V162 : after (issue 0x41000000 (State.reset.setF { defaultFrame with htype := 0x0102, ptype := 0x0304, hlen := 0x05, plen := 0x06, oper := 0x0708, sha := 0x090A0B0C0D0E, spa := 0x0F101112, tha := 0x131415161718, tpa := 0x191A1B1C }))
    (fun t => t.memRead 0 28 == [0x01, 0x02, 0x03, 0x04, 0x05, 0x06, 0x07, 0x08, 0x09, 0x0a, 0x0b, 0x0c, 0x0d, 0x0e, 0x0f, 0x10, 0x11, 0x12, 0x13, 0x14, 0x15, 0x16, 0x17, 0x18, 0x19, 0x1a, 0x1b, 0x1c] && t.st == .ok) = true := by decide

theorem test_fdec_V163 : after (issue 0x42000000 (State.reset.memWrite 0 [0x01, 0x02, 0x03, 0x04, 0x05, 0x06, 0x07, 0x08, 0x09, 0x0a, 0x0b, 0x0c, 0x0d, 0x0e, 0x0f, 0x10, 0x11, 0x12, 0x13, 0x14, 0x15, 0x16, 0x17, 0x18, 0x19, 0x1a, 0x1b, 0x1c]))
    (fun t => t.f.htype == 0x0102 && t.f.sha == 0x090A0B0C0D0E && t.f.tpa == 0x191A1B1C && t.st == .ok) = true := by decide

theorem test_fdec_V165 : after (issue 0x42000000 (State.reset.memWrite 0 [0xff, 0xff, 0xff, 0xff, 0xff, 0xff, 0xff, 0xff, 0xff, 0xff, 0xff, 0xff, 0xff, 0xff, 0xff, 0xff, 0xff, 0xff, 0xff, 0xff, 0xff, 0xff, 0xff, 0xff, 0xff, 0xff, 0xff, 0xff]))
    (fun t => t.f.htype == 0xFFFF && t.f.ptype == 0xFFFF && t.st == .ok) = true := by decide

/-! ### Commands: frame set -/

theorem test_fshtype_V170 : after (issue 0x50010000 (State.reset.setX 1 0x00010006))
    (fun t => t.f.htype == 0x0006 && t.st == .ok) = true := by decide

theorem test_fsptype_V171 : after (issue 0x51010000 (State.reset.setX 1 0x000086DD))
    (fun t => t.f.ptype == 0x86DD && t.st == .ok) = true := by decide

theorem test_fshlen_V172 : after (issue 0x52020000 (State.reset.setX 2 0x00000108))
    (fun t => t.f.hlen == 0x08 && t.st == .ok) = true := by decide

theorem test_fsplen_V173 : after (issue 0x53020000 (State.reset.setX 2 0x00000010))
    (fun t => t.f.plen == 0x10 && t.st == .ok) = true := by decide

theorem test_fsoper_V175 : after (issue 0x54030000 (State.reset.setX 3 0xFFFFFFFF))
    (fun t => t.f.oper == 0xFFFF && t.st == .ok) = true := by decide

theorem test_fssha_V176 : after (issue 0x55000000 (State.reset.setH 0 0x001B44113AB7))
    (fun t => t.f.sha == 0x001B44113AB7 && t.st == .ok) = true := by decide

theorem test_fsspa_V177 : after (issue 0x56000000 (State.reset.setN 0 0xC0A80139))
    (fun t => t.f.spa == 0xC0A80139 && t.st == .ok) = true := by decide

theorem test_fstha_V178 : after (issue 0x57010000 (State.reset.setH 1 0x112233445566))
    (fun t => t.f.tha == 0x112233445566 && t.st == .ok) = true := by decide

theorem test_fstpa_V179 : after (issue 0x58010000 (State.reset.setN 1 0xC0A80101))
    (fun t => t.f.tpa == 0xC0A80101 && t.st == .ok) = true := by decide

/-! ### Commands: frame get -/

theorem test_fghtype_V180 : after (issue 0x60000000 (State.reset.setX 0 0xFFFFFFFF))
    (fun t => t.getX 0 == 0x00000001 && t.st == .ok) = true := by decide

theorem test_fgptype_V181 : after (issue 0x61100000 (State.reset.setX 1 0xFFFFFFFF))
    (fun t => t.getX 1 == 0x00000800 && t.st == .ok) = true := by decide

theorem test_fghlen_V182 : after (issue 0x62200000 (State.reset.setX 2 0xFFFFFFFF))
    (fun t => t.getX 2 == 0x00000006 && t.st == .ok) = true := by decide

theorem test_fgplen_V183 : after (issue 0x63300000 (State.reset.setX 3 0xFFFFFFFF))
    (fun t => t.getX 3 == 0x00000004 && t.st == .ok) = true := by decide

theorem test_fgoper_V189 : after (issue 0x64700000 ((State.reset.setX 7 0x00000000).setF { defaultFrame with oper := 0xFFFF }))
    (fun t => t.getX 7 == 0x0000FFFF && t.st == .ok) = true := by decide

theorem test_fgsha_V185 : after (issue 0x65100000 (State.reset.setF { defaultFrame with sha := 0x112233445566 }))
    (fun t => t.getH 1 == 0x112233445566 && t.st == .ok) = true := by decide

theorem test_fgspa_V186 : after (issue 0x66200000 (State.reset.setF { defaultFrame with spa := 0xC0A80101 }))
    (fun t => t.getN 2 == 0xC0A80101 && t.st == .ok) = true := by decide

theorem test_fgtha_V187 : after (issue 0x67200000 ((State.reset.setH 2 0x000000000005).setF { defaultFrame with tha := 0x001B44113AB7 }))
    (fun t => t.getH 2 == 0x001B44113AB7 && t.st == .ok) = true := by decide

theorem test_fgtpa_V188 : after (issue 0x68300000 (State.reset.setF { defaultFrame with tpa := 0xC0A80139 }))
    (fun t => t.getN 3 == 0xC0A80139 && t.st == .ok) = true := by decide

/-! ### The host port (section 2.11) and the step -/

/-- Performs moves from the reset state and checks the last result. -/
def runMoves (ms : List HostMove) (p : State → Bool) : Bool :=
  after (Sys2Proof.core.run ms.length { State.reset with pending := ms }) p

theorem test_host_H3 : runMoves [.reset, .hostWrite 0x12 (.b32 0xC0A80139), .hostRead 0x12]
    (fun t => t.answer == .value (.b32 0xC0A80139) && t.st == .ok) = true := by decide

theorem test_host_H4 : runMoves [.reset, .hostWrite 0x30 (.b32 4)] (fun t => t == State.reset) = true := by decide

theorem test_host_H5 : ([0x08, 0x24, 0x49, 0x9C] : List (BitVec 8)).all
    (fun sel => runMoves [.reset, .hostRead sel] (fun t => t.answer == .nothing)) = true := by decide

theorem test_host_H6 : runMoves [.reset, .issue 0x22000000, .hostRead 0x10]
    (fun t => t.answer == .value (.b32 1) && t.st == .ok) = true := by decide

theorem test_host_H7 : runMoves [.reset, .issue 0x23000000, .hostRead 0x30]
    (fun t => t.answer == .value (.b32 2) && t.getN 0 == 0) = true := by decide

theorem test_host_H8 : runMoves [.reset, .issue 0x41000000, .hostRead 0x82]
    (fun t => t.answer == .value (.b8 0x08)) = true := by decide

/-- R195 (c): an address register is no 16-bit value. -/
theorem test_host_ill_typed : hostWrite 0x12 (.b16 1) State.reset = .refused .illTypedHostWrite := rfl

/-- V42 as the first command after reset: the placed word is what the step runs. -/
theorem test_step_runs_placed_word : after (step (((State.reset.setN 0 0xFFFFFFFE).setX 1 2).withFetchWord 32 0x20201000))
    (fun t => t.answer == .code .overflow && t.pending == []) = true := by decide

/-- Writing back what an unlisted offset reads as removes the cell. -/
theorem test_canonical_removal : writeByte (writeByte [] 3 0xAA) 3 0 = [] ∧
    writeBytes [] 5 [0x01, 0x00, 0x02] = [(5, 0x01), (7, 0x02)] := by decide

/-! ### Text forms (section 2.9) -/

theorem test_text_T1_T10_T15 : naFromTextWith false "192.168.1.57".toList = .ok 0xC0A80139 ∧
    naFromTextWith false "010.0.0.1".toList = .error .invalidFormat ∧
    naFromTextWith true "010.0.0.1".toList = .ok 0x0A000001 ∧
    naFromTextWith true "256.1.1.1".toList = .error .invalidFormat := by decide

theorem test_text_T12_T14_T17_T24 :
    (["1.2.3", "1..2.3", "1.2.3.4 ", "0001.2.3.4", "1.2.3.", ""].map String.toList).all
      (fun s => naFromTextWith true s == .error .invalidFormat) = true := by decide

theorem test_text_T30_T37_T39 : haFromText "aa:bb:cc:dd:ee:ff".toList = .ok 0xAABBCCDDEEFF ∧
    haFromText "a:b:c:d:e:f".toList = .ok 0x0A0B0C0D0E0F ∧
    haFromText "AA:BB:CC:DD:EE:FF".toList = .ok 0xAABBCCDDEEFF := by decide

theorem test_text_T31_T32_T40_T41_T45 :
    (["aa:bb:cc", "gg:00:00:00:00:00", "aa:bb:cc:dd:ee:ff:", "aa:bb:cc:dd:ee:fff", "aa:bb:cc:dd:ee:f ", ""].map
      String.toList).all (fun s => haFromText s == .error .invalidFormat) = true := by decide

theorem test_text_T64_T67 : naToText 0x010A64FF = "1.10.100.255".toList ∧
    haToText 0x0A0B0C0D0E0F = "0a:0b:0c:0d:0e:0f".toList := by decide

/-- Assembly texts as sections 2.1 and 2.7 write them, and one without operands. -/
theorem test_assembly_text : assemblyText (.hldl 2 2 9) = "HLDL h2, 2, 9".toList ∧
    assemblyText (.nadd 2 0 1) = "NADD n2, n0, x1".toList ∧ assemblyText (.ldb 0 27) = "LDB x0, 27".toList ∧
    assemblyText .fenc = "FENC".toList := by decide

/-- R71: `NLI n0, x0, 192.168.1.57` is steps 2 to 4 of program P1. -/
theorem test_pseudo_nli : expandPseudo (.nli 0 0 0xC0A80139) = [.xli 0 0x0139, .xlih 0 0xC0A8, .nfromx 0 0] := by decide

/-! ### Witnesses: states and operands that meet the hypotheses of the obligations

One per clause, at the boundary values of the clause. -/

/-- n0 = 0xFFFFFFFE, n1 = 1, x1 = 1, x2 = 2, x3 = -1, x4 = -2, an ordinary h1 and a byte in the buffer. -/
def sample : State :=
  ((((((((State.reset.setN 0 0xFFFFFFFE).setN 1 1).setN 2 0xFFFFFFFF).setX 1 1).setX 2 2).setX 3 0xFFFFFFFF).setX 4
    0xFFFFFFFE).setH 1 0x112233445566).memWrite 4 [0x09]

theorem witness_DecodeOfEncodeIsTheCommand : (Instr.hldl 3 13 15).wf = true ∧ (Instr.ldb 7 27).wf = true ∧
    (Instr.nst 7 24).wf = true ∧ (Instr.hst 3 22).wf = true ∧ (Instr.nadd 7 7 7).wf = true := by decide

theorem witness_DecodeAcceptsOnlyEncodings : decode 0x32300F0D = .ok (.hldl 3 13 15) := by decide

theorem witness_DecodeAgreesWithMatchAndMask : ⟨0x04, 0x04000000, 0xFF8FFFE0, .atMost 27⟩ ∈ opcodeRows ∧
    (0x0430001B : CmdWord) &&& 0xFF8FFFE0 = 0x04000000 ∧ (OffsetRule.atMost 27).holds 0x0430001B = true ∧
    (0x0430001C : CmdWord) &&& 0xFF8FFFE0 = 0x04000000 ∧ (OffsetRule.atMost 27).holds 0x0430001C = false := by decide

theorem witness_IllegalWordsAreExactlyTheUnmatched : opcodeRows.all (fun row => row.cmd != cmdField 0x2B000000) = true ∧
    opcodeRows.any (fun row => row.cmd == cmdField 0x10210001 && 0x10210001 &&& row.mask != row.pattern) = true := by
  decide

theorem witness_StepRunsTheDecodedCommand : decode 0x22500000 = .ok (.ninc 5) ∧
    ({ State.reset with pending := [.issue 0x22500000, .reset] } : State).pending = .issue 0x22500000 :: [.reset] := by
  decide

theorem witness_IllegalWordOnlySetsStatus : decode 0x22510000 = .error .mustBeZero ∧ decode 0x22500000 = .ok (.ninc 5) := by
  decide

/-- The other forms of move: the first clause of the statement holds of each. -/
theorem witness_StepRunsTheDecodedCommand_moves :
    ({ sample with pending := [.reset] } : State).pending = .reset :: [] ∧
    ({ sample with pending := [.issue 0, .reset] } : State).pending = .issue 0 :: [.reset] ∧
    ({ sample with pending := [.hostRead 0x9B] } : State).pending = .hostRead 0x9B :: [] ∧
    ({ sample with pending := [.hostWrite 0x30 (.b8 1)] } : State).pending = .hostWrite 0x30 (.b8 1) :: [] := by decide

theorem witness_EveryStepProceeds_refusal :
    step { State.reset with pending := [.hostWrite 0x00 (.b8 1)] } = .refused .illTypedHostWrite ∧
    selectorTarget 0x00 = some (.x 0) ∧ valueWidth (.b8 1) ≠ valueWidth (readTarget State.reset (.x 0)) :=
  ⟨rfl, by decide⟩

theorem witness_CommandsCompleteExactlyWhenWellFormed : (Instr.nld 0 24).wf = true ∧ (Instr.nld 0 25).wf = false := by
  decide

theorem witness_ResponseCarriesTheCode : ∃ t, exec (.ninc 2) sample = .next t ∧ t.st = .overflow := ⟨_, rfl, rfl⟩

theorem witness_ResponseCarriesTheCode_issue : (∃ t, issue 0x22200000 sample = .next t) ∧
    (∃ t, issue 0x22510000 sample = .next t) ∧ decode 0x22510000 = .error .mustBeZero :=
  ⟨⟨_, rfl⟩, ⟨_, rfl⟩, by decide⟩

theorem witness_IdleBlockKeepsAllState : sample.pending = [] := rfl

theorem witness_HostReadGivesTheNamedState : selectorTarget 0x08 = none ∧ selectorTarget 0x9C = none ∧
    selectorTarget 0x31 = none ∧ (27 : Nat) < 28 ∧ sample.st = .ok := by decide

theorem witness_HostReadGivesTheNamedState_codes : (sample.complete .overflow).st = .overflow ∧
    (sample.complete .underflow).st = .underflow ∧ (sample.complete .shortList).st = .shortList ∧
    (sample.complete .illegalCmd).st = .illegalCmd := by decide

theorem witness_HostWriteThenReadGivesTheValue : (selectorTarget 0x9B).isSome = true ∧ (0x9B : BitVec 8) ≠ 0x30 ∧
    after (hostWrite 0x9B (.b8 0xAB) sample) (fun _ => true) = true := by decide

theorem witness_HostWriteChangesOnlyItsTarget : after (hostWrite 0x45 (.b48 1) sample) (fun _ => true) = true ∧
    (0x44 : BitVec 8) ≠ 0x45 ∧ selectorTarget 0x44 = some (.f 4) := by decide

theorem witness_HostWriteChangesOnlyItsTarget_refused : after (hostWrite 0x30 (.b32 4) sample) (fun _ => true) = true ∧
    after (hostWrite 0x48 (.b32 4) sample) (fun _ => true) = true ∧
    after (hostWrite 0x49 (.b8 4) sample) (fun _ => true) = true ∧ selectorTarget 0x49 = none := by decide

theorem witness_HostWriteRefusedExactlyWhenIllTyped : selectorTarget 0x42 = some (.f 2) ∧
    valueWidth (.b8 6) = valueWidth (readTarget sample (.f 2)) ∧
    valueWidth (.b16 6) ≠ valueWidth (readTarget sample (.f 2)) := by decide

theorem witness_FailingCommandChangesOnlyStatus : after (issue 0x22200000 sample) (fun t => t.st != .ok) = true := by
  decide

theorem witness_ErrorCodesHaveExactlyTheirCauses :
    after (issue 0x20302000 sample) (fun t => t.st == .overflow) = true ∧
    after (issue 0x20314000 sample) (fun t => t.st == .underflow) = true ∧
    after (issue 0x32000500 sample) (fun t => t.st == .shortList) = true ∧
    after (issue 0x00000000 sample) (fun t => t.st == .illegalCmd) = true ∧
    after (issue 0x20301000 sample) (fun t => t.st == .ok) = true := by decide

theorem witness_OnlyNamedCommandsWriteFrameAndBuffer : (∃ t, exec (.hsetbc 0) sample = .next t) ∧
    ¬ WritesF (.hsetbc 0) ∧ ¬ WritesWB (.hsetbc 0) := by
  refine ⟨⟨_, rfl⟩, ?_, ?_⟩
  · unfold WritesF; decide
  · unfold WritesWB; decide

theorem witness_EveryStepKeepsTheInvariant : Safety.Inv sample ∧
    ∃ t, step { sample with pending := [.issue 0x3310000A] } = .next t := ⟨by unfold Safety.Inv; decide, _, rfl⟩

theorem witness_ByteLoadZeroExtends : (27 : BitVec 5).toNat ≤ 27 ∧ 27 < (28 : BitVec 5).toNat := by decide

theorem witness_ByteStoreTruncates : (0 : BitVec 5).toNat ≤ 27 ∧ (27 : BitVec 5).toNat ≤ 27 ∧
    27 < (28 : BitVec 5).toNat := by decide

theorem witness_NetworkLoadIsBigEndian : (24 : BitVec 5).toNat ≤ 24 ∧ 24 < (25 : BitVec 5).toNat ∧ (3 : Nat) < 4 := by
  decide

theorem witness_NetworkStoreIsBigEndian : (0 : BitVec 5).toNat ≤ 24 ∧ (24 : BitVec 5).toNat ≤ 24 ∧
    24 < (31 : BitVec 5).toNat ∧ (0 : Nat) < 4 := by decide

theorem witness_NetworkAddIsRangeChecked_ok :
    ((sample.getN 0).toNat : Int) + (sample.getX 1).toInt = 0xFFFFFFFF ∧
    ((sample.getN 1).toNat : Int) + (sample.getX 3).toInt = 0 := by decide

theorem witness_NetworkAddIsRangeChecked_errors :
    ((sample.getN 0).toNat : Int) + (sample.getX 2).toInt = 0xFFFFFFFF + 1 ∧
    ((sample.getN 1).toNat : Int) + (sample.getX 4).toInt = -1 := by decide

theorem witness_NetworkSubIsRangeChecked_ok :
    ((sample.getN 0).toNat : Int) - (sample.getX 3).toInt = 0xFFFFFFFF ∧
    ((sample.getN 1).toNat : Int) - (sample.getX 1).toInt = 0 := by decide

theorem witness_NetworkSubIsRangeChecked_errors :
    ((sample.getN 0).toNat : Int) - (sample.getX 4).toInt = 0xFFFFFFFF + 1 ∧
    ((sample.getN 1).toNat : Int) - (sample.getX 2).toInt = -1 := by decide

theorem witness_NetworkIncrementAndDecrementInPlace : sample.getN 0 ≠ 0xFFFFFFFF ∧ sample.getN 2 = 0xFFFFFFFF ∧
    sample.getN 1 ≠ 0 ∧ sample.getN 3 = 0 := by decide

theorem witness_NetworkPostfixFormsGiveTheOldValue : (sample.getN 0 ≠ 0xFFFFFFFF ∧ (5 : NReg) ≠ 0 ∧ (6 : NReg) ≠ 5) ∧
    sample.getN 2 = 0xFFFFFFFF ∧ sample.getN 1 ≠ 0 ∧ sample.getN 3 = 0 := by decide

theorem witness_NetworkEqualityTest : sample.getN 3 = sample.getN 4 ∧ sample.getN 0 ≠ sample.getN 2 := by decide

/-- Both clauses of the NLT statement, for whatever `RAW_LE` is: 0 before 0xFFFFFFFF, and not the other way. -/
theorem witness_NetworkOrderingTest :
    (orderKey Config.rawLe (sample.getN 3)).toNat < (orderKey Config.rawLe (sample.getN 2)).toNat ∧
    ¬ (orderKey Config.rawLe (sample.getN 2)).toNat < (orderKey Config.rawLe (sample.getN 3)).toNat ∧
    sample.getN 3 = sample.getN 4 := by
  generalize Config.rawLe = le
  revert le
  decide

theorem witness_OrderingIsAStrictTotalOrder : isBefore false 1 2 = true ∧ isBefore false 2 3 = true ∧
    isBefore true 0x01000000 0x02000000 = true ∧ isBefore true 0x00000001 0x02000000 = false ∧
    (3 : Nat) < 4 := by decide

theorem witness_MaskTestComputesTheThreeTests :
    ((0xFFFFFFFC : NetAddr).toNat ≠ 0 ∧ (0xFFFFFFFC : NetAddr).toNat % 256 ≠ 254 ∧
      (0xFFFFFFFC : NetAddr).toNat % 256 ≠ 255 ∧
      (2 ^ 32 - 1 - (0xFFFFFFFC : NetAddr).toNat + 1) &&& (2 ^ 32 - 1 - (0xFFFFFFFC : NetAddr).toNat) = 0) ∧
    (0xFFFFFFFE : NetAddr).toNat % 256 = 254 := by decide

theorem witness_ValidMasksAreTheThirtyPrefixes : (2 ≤ 31 ∧ 31 ≤ 31) ∧ isValidMask 0x80000000 = true ∧
    (0xFFFFFFFF : BitVec 32) <<< 31 = 0x80000000 ∧ isValidMask 0xFFFFFFFC = true ∧
    (0xFFFFFFFF : BitVec 32) <<< 2 = 0xFFFFFFFC := by decide

/-- Both values NISMASK writes: 1 at /30 and 0 at /31. -/
theorem witness_ValidMasksAreTheThirtyPrefixes_command :
    after (issue 0x28110000 (sample.setN 1 0xFFFFFFFC)) (fun t => t.getX 1 == 1) = true ∧
    after (issue 0x28110000 (sample.setN 1 0xFFFFFFFE)) (fun t => t.getX 1 == 0) = true := by decide

theorem witness_HardwareLoadTakesSixBytes : (22 : BitVec 5).toNat ≤ 22 ∧ 22 < (23 : BitVec 5).toNat ∧ (5 : Nat) < 6 := by
  decide

theorem witness_HardwareListLoadNeedsSixElements :
    ((22 : BitVec 5).toNat + (6 : BitVec 4).toNat ≤ 28 ∧ 6 ≤ (6 : BitVec 4).toNat) ∧
    ((23 : BitVec 5).toNat + (5 : BitVec 4).toNat ≤ 28 ∧ (5 : BitVec 4).toNat < 6) ∧
    28 < (14 : BitVec 5).toNat + (15 : BitVec 4).toNat ∧ 28 < (27 : BitVec 5).toNat + (3 : BitVec 4).toNat := by decide

theorem witness_HardwareStoreIsBigEndian : (0 : BitVec 5).toNat ≤ 22 ∧ (22 : BitVec 5).toNat ≤ 22 ∧
    22 < (23 : BitVec 5).toNat := by decide

theorem witness_HardwareTests :
    (∀ k, k < 6 → (sample.getH 0).extractLsb' (8 * k) 8 = (sample.getH 2).extractLsb' (8 * k) 8) ∧
    (∃ k, k < 6 ∧ (sample.getH 0).extractLsb' (8 * k) 8 ≠ (sample.getH 1).extractLsb' (8 * k) 8) ∧
    (∀ k, k < 6 → (sample.getH 0).extractLsb' (8 * k) 8 = 0) ∧
    (∃ k, k < 6 ∧ (sample.getH 1).extractLsb' (8 * k) 8 ≠ 0) :=
  ⟨by decide, ⟨0, by decide⟩, by decide, ⟨5, by decide⟩⟩

theorem witness_FrameRoundTripBothWays : (List.replicate 28 (0xA5 : Byte)).length = 28 := by decide

theorem witness_StoredWordReadsBackBytewise : (24 : BitVec 5).toNat ≤ 24 ∧ 3 < 4 ∧
    (27 : BitVec 5).toNat = (24 : BitVec 5).toNat + 3 := by decide

theorem witness_DottedQuadRoundTrip : "10.0.0.1".toList = naToText 0x0A000001 ∧
    naFromTextWith true "010.0.0.1".toList = .ok 0x0A000001 := by decide

/-- The third clause: canonical text is accepted whatever `LEADING_ZERO_OK` is. -/
theorem witness_DottedQuadRoundTrip_canonical : naFromText "10.0.0.1".toList = .ok 0x0A000001 := by
  unfold naFromText
  generalize Config.leadingZeroOk = z
  revert z
  decide

/-- The last clause: no canonical text begins with a zero and a second digit. -/
theorem witness_DottedQuadRoundTrip_notCanonical : ∀ w : NetAddr, naToText w ≠ "010.0.0.1".toList := by
  intro w
  have key : ∀ b : Byte, octetText b = ['0'] ∨ ((octetText b).head? ≠ some '0' ∧ octetText b ≠ []) := by decide +kernel
  intro h
  rcases key (w.extractLsb' 24 8) with h0 | ⟨h1, h2⟩
  · simp [naToText, joinWith, h0] at h
  · rcases hc : octetText (w.extractLsb' 24 8) with _ | ⟨c, cs⟩
    · exact h2 hc
    · simp [hc] at h1
      simp [naToText, joinWith, hc, h1] at h

theorem witness_ColonHexRoundTrip : haFromText "aa:bb:cc:dd:ee:ff".toList = .ok 0xAABBCCDDEEFF ∧
    "aa:bb:cc:dd:ee:ff".toList.length = 17 ∧
    "aa:bb:cc:dd:ee:ff".toList.all (fun c => !(65 ≤ c.toNat && c.toNat ≤ 90)) = true ∧
    haFromText "A:b:c:d:e:f".toList = .ok 0x0A0B0C0D0E0F := by decide

/-- The two clauses of NGT, for whatever `RAW_LE` is. -/
theorem witness_PseudoInstructionsDoWhatTheirTableSays :
    isBefore Config.rawLe (sample.getN 3) (sample.getN 2) = true ∧
    isBefore Config.rawLe (sample.getN 2) (sample.getN 3) = false := by
  generalize Config.rawLe = le
  revert le
  decide

end Sys2Proof.Tests
end

section
/-! SUPPORT. The host port: which selector names which piece of state, and what a read gives after a write. -/

namespace Sys2Proof.Machine

/-! ### The selectors of R31 -/

theorem selectorTarget_x (r : XReg) : selectorTarget (BitVec.ofNat 8 r.val) = some (.x r) := by
  revert r; decide

theorem selectorTarget_n (r : NReg) : selectorTarget (BitVec.ofNat 8 (0x10 + r.val)) = some (.n r) := by
  revert r; decide

theorem selectorTarget_h (r : HReg) : selectorTarget (BitVec.ofNat 8 (0x20 + r.val)) = some (.h r) := by
  revert r; decide

theorem selectorTarget_st : selectorTarget 0x30 = some .st := rfl

theorem selectorTarget_f (k : Fin 9) : selectorTarget (BitVec.ofNat 8 (0x40 + k.val)) = some (.f k) := by
  revert k; decide

theorem selectorTarget_wb (o : Fin 28) : selectorTarget (BitVec.ofNat 8 (0x80 + o.val)) = some (.wb o) := by
  revert o; decide

/-- A read of the selector of frame field `k`. -/
theorem hostRead_field (k : Fin 9) (s : State) :
    hostRead (BitVec.ofNat 8 (0x40 + k.val)) s = .next { s with answer := .value (fieldValue s.f k) } :=
  hostRead_of_target (selectorTarget_f k) s

/-- What the host reads from `ST` is the number of the code (R27). -/
theorem readTarget_st (s : State) : readTarget s .st = .b32 (BitVec.ofNat 32 s.st.bits.toNat) := by
  simp only [readTarget, BitVec.ofNat_toNat]

/-! ### `answerNothing` changes no piece of state -/

@[simp] theorem State.answerNothing_st (s : State) : s.answerNothing.st = s.st := rfl
@[simp] theorem State.answerNothing_pending (s : State) : s.answerNothing.pending = s.pending := rfl
@[simp] theorem State.answerNothing_answer (s : State) : s.answerNothing.answer = .nothing := rfl

@[simp] theorem readTarget_answerNothing (s : State) (g : HostTarget) :
    readTarget s.answerNothing g = readTarget s g := by
  cases g <;> rfl

theorem onlyST_answerNothing (s : State) : Safety.OnlyST s s.answerNothing :=
  ⟨fun _ => rfl, fun _ => rfl, fun _ => rfl, rfl, fun _ => rfl⟩

/-! ### A write, and the reads after it -/

/-- The frame's field `k` has the value written, every other field the value it had. -/
theorem fieldValue_withField {f f' : Frame} {k : Fin 9} {v : HostValue} (h : withField f k v = some f') (j : Fin 9) :
    fieldValue f' j = if j = k then v else fieldValue f j := by
  fin_cases k
  all_goals
    cases v <;> simp only [withField, reduceCtorEq, Option.some.injEq] at h
    subst h
    fin_cases j <;> rfl

/-- Everything a write of the host can do to a piece of state. -/
theorem writeTarget_cases {s s' : State} {g : HostTarget} {v : HostValue} (h : writeTarget s g v = some s') :
    (∃ r w, g = .x r ∧ v = .b32 w ∧ s' = s.setX r w) ∨
    (∃ r w, g = .n r ∧ v = .b32 w ∧ s' = s.setN r w) ∨
    (∃ r w, g = .h r ∧ v = .b48 w ∧ s' = s.setH r w) ∨
    (g = .st ∧ s' = s) ∨
    (∃ k f', g = .f k ∧ withField s.f k v = some f' ∧ s' = s.setF f') ∨
    (∃ o b, g = .wb o ∧ v = .b8 b ∧ s' = s.memWrite o.val [b]) := by
  unfold writeTarget at h
  split at h
  case h_5 k =>
    obtain ⟨f', hf, rfl⟩ := Option.map_eq_some_iff.mp h
    simp [hf]
  all_goals cases h
  all_goals simp

theorem State.byte_memWrite_singleton (s : State) (o : Nat) (b : Byte) (p : Nat) :
    (s.memWrite o [b]).byte p = if p = o then b else s.byte p :=
  readByte_writeByte s.wb o b p

/-- A write of a piece of state other than `ST`, which ignores it: the piece reads as written, every other as before. -/
theorem readTarget_writeTarget {s s' : State} {g : HostTarget} {v : HostValue} (h : writeTarget s g v = some s')
    (hg : g ≠ .st) (g' : HostTarget) : readTarget s' g' = if g' = g then v else readTarget s g' := by
  rcases writeTarget_cases h with ⟨r, w, rfl, rfl, rfl⟩ | ⟨r, w, rfl, rfl, rfl⟩ | ⟨r, w, rfl, rfl, rfl⟩ |
    ⟨rfl, -⟩ | ⟨k, f', rfl, hf, rfl⟩ | ⟨o, b, rfl, rfl, rfl⟩
  · cases g' <;> simp [readTarget, State.getX_setX, apply_ite HostValue.b32]
  · cases g' <;> simp [readTarget, State.getN_setN, apply_ite HostValue.b32]
  · cases g' <;> simp [readTarget, State.getH_setH, apply_ite HostValue.b48]
  · exact absurd rfl hg
  · cases g' <;> simp [readTarget, fieldValue_withField hf]
  · cases g' <;> simp [readTarget, State.byte_memWrite_singleton, Fin.ext_iff, apply_ite HostValue.b8]

/-- No write of the host touches `ST` or the moves to come. -/
theorem writeTarget_keeps {s s' : State} {g : HostTarget} {v : HostValue} (h : writeTarget s g v = some s') :
    s'.st = s.st ∧ s'.pending = s.pending := by
  rcases writeTarget_cases h with ⟨r, w, -, -, rfl⟩ | ⟨r, w, -, -, rfl⟩ | ⟨r, w, -, -, rfl⟩ |
    ⟨-, rfl⟩ | ⟨k, f', -, -, rfl⟩ | ⟨o, b, -, -, rfl⟩ <;>
  exact ⟨rfl, rfl⟩

theorem writeTarget_st {s s' : State} {v : HostValue} (h : writeTarget s .st v = some s') : s' = s := by
  simpa using writeTarget_cases h

/-- A write of a piece of state leaves what every other piece reads as. -/
theorem readTarget_writeTarget_of_ne {s s' : State} {g g' : HostTarget} {v : HostValue}
    (h : writeTarget s g v = some s') (hne : g' ≠ g) : readTarget s' g' = readTarget s g' := by
  by_cases hg : g = .st
  · subst hg; rw [writeTarget_st h]
  · rw [readTarget_writeTarget h hg, if_neg hne]

end Sys2Proof.Machine
end

section
/-! SUPPORT. Everything a command can do to the state, said once for all 54: which file, field or bytes it writes
before it completes with `OK`, and that nothing is written when it completes with an error (60_exceptions.md R183). -/

namespace Sys2Proof.Machine

open Sys2Proof.Safety

/-- The writes a command that completes with `OK` makes: `Writes i s u` when they lead from `s` to `u`. Only the
commands named in 10_state.md R25 write F, only those of R26 write `WB`, and those stay inside its 28 bytes. -/
inductive Writes (i : Instr) (s : State) : State → Prop where
  | x (d : XReg) (v : Scalar) : Writes i s (s.setX d v)
  | n (d : NReg) (v : NetAddr) : Writes i s (s.setN d v)
  | nn (a d : NReg) (v w : NetAddr) : Writes i s ((s.setN a v).setN d w)
  | h (d : HReg) (v : HwAddr) : Writes i s (s.setH d v)
  | f (g : Frame) (hf : WritesF i) : Writes i s (s.setF g)
  | wb (o : Nat) (bs : List Byte) (hw : WritesWB i) (hb : o + bs.length ≤ 28) : Writes i s (s.memWrite o bs)

/-- If `r` answers a next state, it is that of the command `i` completed in `s`: with an error and no write, or with
`OK` after its writes. -/
def Completes (i : Instr) (s : State) (r : StepResult) : Prop :=
  ∀ t, r = .next t → (∃ c, c ≠ .ok ∧ t = s.complete c) ∨ ∃ u, Writes i s u ∧ t = u.complete .ok

section
variable {i : Instr} {s : State}

theorem completes_finish {u : State} (h : Writes i s u) : Completes i s (finish u) :=
  fun _ ht => .inr ⟨u, h, finish_next ht⟩

theorem completes_raise {c : Code} (h : c ≠ .ok) : Completes i s (raise c s) :=
  fun _ ht => .inl ⟨c, h, raise_next ht⟩

theorem completes_inBuffer {off n : Nat} {k : StepResult} (h : off + n ≤ 28 → Completes i s k) :
    Completes i s (inBuffer off n k) := fun t ht =>
  have ⟨hb, hk⟩ := inBuffer_next ht
  h hb t hk

theorem completes_arith {r : Int} {wr : NetAddr → State} (h : ∀ v, Writes i s (wr v)) :
    Completes i s (arith r wr s) := by
  rcases arith_cases r wr s with ⟨-, -, e⟩ | ⟨-, e⟩ | ⟨-, e⟩ <;> rw [e]
  · exact completes_finish (h _)
  · exact completes_raise (by decide)
  · exact completes_raise (by decide)

end

theorem length_encodeFrame (f : Frame) : (encodeFrame f).length = 28 := by
  simp [encodeFrame]

/-- Every command completes so; the cases stand in groups by what the command writes. -/
theorem exec_completes (i : Instr) (s : State) : Completes i s (exec i s) := by
  cases i
  case xli | xlih | xmov | ntox | neq | nlt | nismask | heq | hne | hisnull | fghtype | fgptype | fghlen | fgplen |
      fgoper =>
    exact completes_finish (.x _ _)
  case nmov | nfromx | nnot | nand | nor | nxor | nnet | nbcast | fgspa | fgtpa =>
    exact completes_finish (.n _ _)
  case hmov | hsetbc | fgsha | fgtha =>
    exact completes_finish (.h _ _)
  case ldb => exact completes_inBuffer fun _ => completes_finish (.x _ _)
  case nld => exact completes_inBuffer fun _ => completes_finish (.n _ _)
  case hld => exact completes_inBuffer fun _ => completes_finish (.h _ _)
  case hldl r off cnt =>
    refine completes_inBuffer fun _ => ?_
    split
    · exact completes_raise (by decide)
    · exact completes_finish (.h _ _)
  case nadd | nsub | ninc | ndec =>
    exact completes_arith fun _ => .n _ _
  case nincp | ndecp =>
    exact completes_arith fun _ => .nn _ _ _ _
  case finit | fdec | fshtype | fsptype | fshlen | fsplen | fsoper | fssha | fsspa | fstha | fstpa =>
    exact completes_finish (.f _ (by simp [WritesF, Instr.cmd]))
  case fenc =>
    exact completes_finish (.wb _ _ (by simp [WritesWB, Instr.cmd]) (by simp [length_encodeFrame]))
  case stb | nst | hst =>
    exact completes_inBuffer fun hb =>
      completes_finish (.wb _ _ (by simp [WritesWB, Instr.cmd]) (by simpa using hb))

theorem Writes.f_eq {i : Instr} {s u : State} (h : Writes i s u) (hf : ¬ WritesF i) : u.f = s.f := by
  cases h with
  | f g hw => exact absurd hw hf
  | _ => rfl

theorem Writes.wb_eq {i : Instr} {s u : State} (h : Writes i s u) (hwb : ¬ WritesWB i) : u.wb = s.wb := by
  cases h with
  | wb o bs hw hb => exact absurd hw hwb
  | _ => rfl

end Sys2Proof.Machine
end

section
/-! The statements of 10_state.md. -/

namespace Sys2Proof.Machine

open Sys2Proof.Safety

/-- Settles O15, from what each selector names. -/
theorem hostReadGivesTheNamedState : Obligations.HostReadGivesTheNamedState := by
  intro s
  refine ⟨fun r => hostRead_of_target (selectorTarget_x r) s, fun r => hostRead_of_target (selectorTarget_n r) s,
    fun r => hostRead_of_target (selectorTarget_h r) s, ⟨s.st.bits.toNat, ?_, ?_⟩,
    hostRead_field 0 s, hostRead_field 1 s, hostRead_field 2 s, hostRead_field 3 s, hostRead_field 4 s,
    hostRead_field 5 s, hostRead_field 6 s, hostRead_field 7 s, hostRead_field 8 s,
    fun o ho => hostRead_of_target (selectorTarget_wb ⟨o, ho⟩) s, fun sel h => hostRead_of_unassigned h s⟩
  · rw [hostRead_of_target selectorTarget_st, readTarget_st]
  · cases s.st <;> decide

/-- Settles O17: the write is of the target a later read names. -/
theorem hostWriteThenReadGivesTheValue : Obligations.HostWriteThenReadGivesTheValue := by
  intro sel v s t hsome hst h
  rcases hostWrite_next h with ⟨hnone, -⟩ | ⟨g, s', hg, hw, rfl⟩
  · simp [hnone] at hsome
  · have hgst : g ≠ .st := by
      rintro rfl
      exact hst (selectorTarget_inj hg selectorTarget_st)
    refine ⟨(writeTarget_keeps hw).1, ?_⟩
    rw [hostRead_of_target hg, readTarget_answerNothing, readTarget_writeTarget hw hgst, if_pos rfl]

/-- Settles O18: different selectors name different pieces of state. -/
theorem hostWriteChangesOnlyItsTarget : Obligations.HostWriteChangesOnlyItsTarget := by
  intro sel v s t h
  rcases hostWrite_next h with ⟨-, rfl⟩ | ⟨g, s', hg, hw, rfl⟩
  · exact ⟨fun _ _ _ _ => readTarget_answerNothing s _, fun _ => ⟨onlyST_answerNothing s, rfl⟩, rfl, rfl⟩
  · obtain ⟨hst, hpending⟩ := writeTarget_keeps hw
    refine ⟨fun sel' g' hne hg' => ?_, fun hsel => ?_, rfl, hpending⟩
    · have hgne : g' ≠ g := by
        rintro rfl
        exact hne (selectorTarget_inj hg' hg)
      rw [readTarget_answerNothing, readTarget_writeTarget_of_ne hw hgne]
    · have hgst : g = .st := by
        rcases hsel with rfl | hnone
        · exact Option.some.inj (hg.symm.trans selectorTarget_st)
        · simp [hnone] at hg
      subst hgst
      rw [writeTarget_st hw]
      exact ⟨onlyST_answerNothing s, rfl⟩

/-- Settles O22, from what every command can write. -/
theorem onlyNamedCommandsWriteFrameAndBuffer : Obligations.OnlyNamedCommandsWriteFrameAndBuffer := by
  intro i s t h
  rcases exec_completes i s t h with ⟨c, -, rfl⟩ | ⟨u, hu, rfl⟩
  · exact ⟨fun _ => rfl, fun _ => rfl⟩
  · exact ⟨hu.f_eq, hu.wb_eq⟩

/-- Settles O1: the encoding of the default frame begins with the bytes 00 01, and `WB[1]` is 0. -/
theorem resetGivesTheTableOfValues : Obligations.ResetGivesTheTableOfValues := by
  have hwb : State.reset.memRead 0 28 ≠ encodeFrame State.reset.f := by
    intro h
    have h1 : (State.reset.memRead 0 28)[1]? = (encodeFrame State.reset.f)[1]? := by rw [h]
    exact absurd h1 (by decide)
  exact ⟨by simp [State.getX, State.reset], by simp [State.getN, State.reset], by simp [State.getH, State.reset],
    rfl, rfl, rfl, rfl, rfl, rfl, rfl, rfl, rfl, fun _ _ => rfl, rfl, hwb⟩

/-- Settles O16, by the branches of `selectorTarget`. -/
theorem assignedSelectors : Obligations.AssignedSelectors := by
  intro sel
  unfold selectorTarget
  simp only
  split_ifs <;> simp only [Option.isSome_some, Option.isSome_none, true_iff, Bool.false_eq_true, false_iff] <;> omega

/-- Settles O23: the buffer after reset lists no cell. -/
theorem resetMeetsTheInvariant : Obligations.ResetMeetsTheInvariant :=
  ⟨List.Pairwise.nil, fun _ hc => absurd hc List.not_mem_nil⟩

end Sys2Proof.Machine
end

section
/-! SUPPORT. The bytes of a value in the wire buffer (20_memory.md R42, R46): what a byte read gives after a store, and
the bytes of a loaded value; then the commands `LDB`, `NLD` and `NST` at an offset inside the buffer. -/

namespace Sys2Proof.Machine

/-- Byte `k` from the top of a value joined from `n` bytes is the `k`-th of them, when they fit. -/
theorem extractLsb'_frombe {w n k : Nat} {bs : List Byte} {b : Byte} (hlen : bs.length = n) (hw : 8 * n ≤ w)
    (hb : bs[k]? = some b) : (frombe w bs).extractLsb' (8 * (n - 1 - k)) 8 = b := by
  subst hlen
  have hk : k < bs.length := (List.getElem?_eq_some_iff.mp hb).1
  have hbe := getElem?_be (frombe w bs) bs.length k
  rw [be_frombe w bs hw, if_pos hk, hb] at hbe
  exact (Option.some.inj hbe).symm

theorem frombe_singleton (b : Byte) : frombe 8 [b] = b := by
  simp [frombe]

theorem State.getElem?_memRead (s : State) {off n k : Nat} (hk : k < n) :
    (s.memRead off n)[k]? = some (s.byte (off + k)) :=
  (getElem?_readBytes s.wb off n k).trans (if_pos hk)

@[simp] theorem State.length_memRead (s : State) (off n : Nat) : (s.memRead off n).length = n :=
  length_readBytes s.wb off n

/-- Byte `k` from the top of the value loaded from the `n` bytes at `off` is the byte at `off + k`. -/
theorem State.extractLsb'_frombe_memRead (s : State) {w off n k : Nat} (hw : 8 * n ≤ w) (hk : k < n) :
    (frombe w (s.memRead off n)).extractLsb' (8 * (n - 1 - k)) 8 = s.byte (off + k) :=
  extractLsb'_frombe (s.length_memRead off n) hw (s.getElem?_memRead hk)

/-- After a store of the `n` bytes of `v` at `off`, the byte at `off + k` is byte `k` from the top of `v`. -/
theorem State.byte_memWrite_be (s : State) {w off n k : Nat} (v : BitVec w) (hk : k < n) :
    (s.memWrite off (be v n)).byte (off + k) = v.extractLsb' (8 * (n - 1 - k)) 8 := by
  have hin : off ≤ off + k ∧ off + k < off + (be v n).length := by simp [hk]
  simp only [State.byte, State.memWrite_wb, readByte_writeBytes, if_pos hin, Nat.add_sub_cancel_left, List.getD,
    getElem?_be, if_pos hk, Option.getD_some]

/-! ### Loads and stores inside the buffer -/

theorem exec_ldb (r : XReg) {off : BitVec 5} (h : off.toNat ≤ 27) (s : State) :
    exec (.ldb r off) s = .next ((s.setX r (zext32 (s.byte off.toNat))).complete .ok) := by
  have hread : s.memRead off.toNat 1 = [s.byte off.toNat] := rfl
  calc exec (.ldb r off) s
      = finish (s.setX r (zext32 (frombe 8 (s.memRead off.toNat 1)))) := inBuffer_of_le _ (by omega)
    _ = .next ((s.setX r (zext32 (s.byte off.toNat))).complete .ok) := by rw [hread, frombe_singleton, finish_eq]

theorem exec_nld (r : NReg) {off : BitVec 5} (h : off.toNat ≤ 24) (s : State) :
    exec (.nld r off) s = .next ((s.setN r (frombe 32 (s.memRead off.toNat 4))).complete .ok) :=
  inBuffer_of_le _ (by omega)

theorem exec_nst (r : NReg) {off : BitVec 5} (h : off.toNat ≤ 24) (s : State) :
    exec (.nst r off) s = .next ((s.memWrite off.toNat (be (s.getN r) 4)).complete .ok) :=
  inBuffer_of_le _ (by omega)

end Sys2Proof.Machine
end

section
/-! SUPPORT. The invariant is about the wire buffer alone, so a step keeps it because each of its writes stays inside
the 28 bytes: one lemma per kind of move (60_exceptions.md R194). -/

namespace Sys2Proof.Machine

/-- The invariant reads no piece of state but the buffer. -/
theorem inv_of_wb_eq {s t : State} (hs : Safety.Inv s) (h : t.wb = s.wb) : Safety.Inv t := by
  unfold Safety.Inv
  rwa [h]

theorem inv_memWrite {s : State} (hs : Safety.Inv s) {o : Nat} {bs : List Byte} (h : o + bs.length ≤ 28) :
    Safety.Inv (s.memWrite o bs) :=
  wf_writeBytes bs s.wb o hs h

theorem Writes.keeps_inv {i : Instr} {s u : State} (h : Writes i s u) (hs : Safety.Inv s) : Safety.Inv u := by
  cases h with
  | wb o bs _ hb => exact inv_memWrite hs hb
  | _ => exact inv_of_wb_eq hs rfl

theorem exec_keeps_inv {i : Instr} {s t : State} (hs : Safety.Inv s) (h : exec i s = .next t) : Safety.Inv t := by
  rcases exec_completes i s t h with ⟨c, -, rfl⟩ | ⟨u, hu, rfl⟩
  · exact inv_of_wb_eq hs rfl
  · exact inv_of_wb_eq (hu.keeps_inv hs) rfl

theorem issue_keeps_inv {w : CmdWord} {s t : State} (hs : Safety.Inv s) (h : issue w s = .next t) : Safety.Inv t := by
  rcases issue_cases w s with ⟨i, -, hexec⟩ | ⟨e, -, hill⟩
  · exact exec_keeps_inv hs (hexec.symm.trans h)
  · rw [hill] at h
    cases h
    exact inv_of_wb_eq hs rfl

theorem hostReset_keeps_inv {s t : State} (h : hostReset s = .next t) : Safety.Inv t := by
  cases h
  exact inv_of_wb_eq (s := State.reset) resetMeetsTheInvariant rfl

theorem hostRead_keeps_inv {sel : BitVec 8} {s t : State} (hs : Safety.Inv s) (h : hostRead sel s = .next t) :
    Safety.Inv t := by
  rcases htarget : selectorTarget sel with _ | g
  · rw [hostRead_of_unassigned htarget] at h
    cases h
    exact inv_of_wb_eq hs rfl
  · rw [hostRead_of_target htarget] at h
    cases h
    exact inv_of_wb_eq hs rfl

theorem writeTarget_keeps_inv {s s' : State} {g : HostTarget} {v : HostValue} (hs : Safety.Inv s)
    (h : writeTarget s g v = some s') : Safety.Inv s' := by
  rcases writeTarget_cases h with ⟨r, w, -, -, rfl⟩ | ⟨r, w, -, -, rfl⟩ | ⟨r, w, -, -, rfl⟩ |
    ⟨-, rfl⟩ | ⟨k, f', -, -, rfl⟩ | ⟨o, b, -, -, rfl⟩
  case inr.inr.inr.inr.inr => exact inv_memWrite hs o.isLt
  all_goals exact inv_of_wb_eq hs rfl

theorem hostWrite_keeps_inv {sel : BitVec 8} {v : HostValue} {s t : State} (hs : Safety.Inv s)
    (h : hostWrite sel v s = .next t) : Safety.Inv t := by
  rcases hostWrite_next h with ⟨-, rfl⟩ | ⟨g, s', -, hw, rfl⟩
  · exact inv_of_wb_eq hs rfl
  · exact inv_of_wb_eq (writeTarget_keeps_inv hs hw) rfl

theorem performMove_keeps_inv {m : HostMove} {s t : State} (hs : Safety.Inv s) (h : performMove m s = .next t) :
    Safety.Inv t := by
  cases m with
  | reset => exact hostReset_keeps_inv h
  | issue w => exact issue_keeps_inv hs h
  | hostRead sel => exact hostRead_keeps_inv hs h
  | hostWrite sel v => exact hostWrite_keeps_inv hs h

end Sys2Proof.Machine
end

section
/-! The statements of 20_memory.md. -/

namespace Sys2Proof.Machine

/-- Settles O24: an idle step keeps the state, and every move keeps the invariant. -/
theorem everyStepKeepsTheInvariant : Obligations.EveryStepKeepsTheInvariant := by
  intro s t hs h
  rcases step_cases s with ⟨-, hidle⟩ | ⟨m, rest, -, hmove⟩
  · rw [hidle] at h
    cases h
    exact hs
  · have hrest : Safety.Inv { s with pending := rest } := inv_of_wb_eq hs rfl
    exact performMove_keeps_inv hrest (hmove.symm.trans h)

/-- Settles O56: `LDB` gives the byte at its offset, so both halves are about the byte at `off + k`. -/
theorem storedWordReadsBackBytewise : Obligations.StoredWordReadsBackBytewise := by
  intro r q e off lo k s hoff hk hlo
  have hlo27 : lo.toNat ≤ 27 := by omega
  have hshift : 24 - 8 * k = 8 * (4 - 1 - k) := by omega
  rw [hshift]
  refine ⟨⟨_, _, exec_nst r hoff s, exec_ldb e hlo27 _, rfl, ?_⟩, ⟨_, _, exec_nld q hoff s, exec_ldb e hlo27 s, ?_⟩⟩
  · rw [State.getX_complete, State.getX_setX_self, State.byte_complete, hlo, State.byte_memWrite_be s _ hk, zext32]
  · rw [State.getN_complete, State.getN_setN_self, State.getX_complete, State.getX_setX_self, hlo,
      State.extractLsb'_frombe_memRead s (by decide) hk, zext32]

end Sys2Proof.Machine
end

section
/-! SUPPORT. What one row of R62 says, as data: its format with the slots. From it follow the words the row accepts, its
mask, and the words of its commands, each proved once per format and for all slots. -/

namespace Sys2Proof

/-! ### Slots -/

/-- How a nibble is read (R59): the decoder's test, the nibble of a value it gives, and the nibble of R62's mask. -/
structure Slot (α : Type) where
  read : BitVec 4 → Except Illegal α
  bits : α → BitVec 4
  mask : BitVec 4
  read_ok_iff : ∀ b r, read b = .ok r ↔ b = bits r
  exists_bits_iff : ∀ b, (∃ r, b = bits r) ↔ b &&& mask = 0

def Slot.x : Slot XReg := ⟨xSlot, nibble, 8, xSlot_ok_iff, exists_nibble_eight_iff⟩

def Slot.n : Slot NReg := ⟨nSlot, nibble, 8, nSlot_ok_iff, exists_nibble_eight_iff⟩

def Slot.h : Slot HReg := ⟨hSlot, nibble, 12, hSlot_ok_iff, exists_nibble_four_iff⟩

/-- An unused slot, which must be zero. -/
def Slot.zero : Slot Unit := ⟨zeroField, fun _ => 0, 15, zeroField_ok_iff, by decide⟩

theorem Slot.exists_read_iff {α : Type} (s : Slot α) (b : BitVec 4) : (∃ r, s.read b = .ok r) ↔ b &&& s.mask = 0 := by
  simp only [s.read_ok_iff, s.exists_bits_iff]

/-! ### Masks -/

/-- The mask whose `cmd` field is all ones and whose other fields are the ones given. -/
def maskWord (rd ra rb cnt : BitVec 4) (gap : BitVec 3) (off : BitVec 5) : CmdWord :=
  wordR 0xFF rd ra rb ||| wordM 0 0 cnt off ||| gap.setWidth 32 <<< 5

theorem fields_maskWord (rd ra rb cnt : BitVec 4) (gap : BitVec 3) (off : BitVec 5) :
    cmdField (maskWord rd ra rb cnt gap off) = .allOnes 8 ∧ rdField (maskWord rd ra rb cnt gap off) = rd ∧
      raField (maskWord rd ra rb cnt gap off) = ra ∧ rbField (maskWord rd ra rb cnt gap off) = rb ∧
      cntField (maskWord rd ra rb cnt gap off) = cnt ∧ gapField (maskWord rd ra rb cnt gap off) = gap ∧
      offField (maskWord rd ra rb cnt gap off) = off := by
  unfold cmdField rdField raField rbField cntField gapField offField maskWord wordR wordM
  refine ⟨?_, ?_, ?_, ?_, ?_, ?_, ?_⟩
  all_goals
    ext i hi
    interval_cases i <;> simp

/-- A masked word equals a match that is zero below `cmd` exactly when its fields do, one by one. -/
theorem and_maskWord_iff (w : CmdWord) (c : BitVec 8) (rd ra rb cnt : BitVec 4) (gap : BitVec 3) (off : BitVec 5) :
    w &&& maskWord rd ra rb cnt gap off = wordR c 0 0 0 ↔
      cmdField w = c ∧ rdField w &&& rd = 0 ∧ raField w &&& ra = 0 ∧ rbField w &&& rb = 0 ∧ cntField w &&& cnt = 0 ∧
        gapField w &&& gap = 0 ∧ offField w &&& off = 0 := by
  obtain ⟨hcmd, hrd, hra, hrb, hcnt, hgap, hoff⟩ := fields_maskWord rd ra rb cnt gap off
  obtain ⟨hcnt0, hgap0, hoff0⟩ := (lowField_eq_zero_iff _).mp (lowField_wordR c 0 0 0)
  rw [eq_iff_fields, cmdField_and, rdField_and, raField_and, rbField_and, cntField_and, gapField_and, offField_and,
    hcmd, hrd, hra, hrb, hcnt, hgap, hoff, cmdField_wordR, rdField_wordR, raField_wordR, rbField_wordR, hcnt0, hgap0,
    hoff0, BitVec.and_allOnes]

/-! ### Formats -/

/-- The formats of R56 to R58 with their slots, and the command they give. -/
inductive Format : Type 1 where
  | r {α β γ : Type} (sd : Slot α) (sa : Slot β) (sb : Slot γ) (mk : α → β → γ → Instr)
  | i (mk : XReg → BitVec 16 → Instr)
  | m {α : Type} (sr : Slot α) (max : Nat) (mk : α → BitVec 5 → Instr)
  | ml (mk : HReg → BitVec 5 → BitVec 4 → Instr)

namespace Format

/-- What the decoder answers for a word of the format. -/
def decode : Format → CmdWord → Except Illegal Instr
  | r sd sa sb mk, w => formatR w sd.read sa.read sb.read mk
  | i mk, w => formatI w mk
  | m sr max mk, w => formatM w sr.read max mk
  | ml mk, w => formatML w mk

/-- `w` is the word, with code `c`, of the command `j` that the format gives for operands R58 admits. -/
def Encodes (c : BitVec 8) (j : Instr) (w : CmdWord) : Format → Prop
  | r sd sa sb mk => ∃ d a b, mk d a b = j ∧ wordR c (sd.bits d) (sa.bits a) (sb.bits b) = w
  | i mk => ∃ d imm, mk d imm = j ∧ wordI c (nibble d) imm = w
  | m sr max mk => ∃ r off, off.toNat ≤ max ∧ mk r off = j ∧ wordM c (sr.bits r) 0 off = w
  | ml mk => ∃ r off cnt, off.toNat + cnt.toNat ≤ 28 ∧ mk r off cnt = j ∧ wordM c (nibble r) cnt off = w

/-- The row of R62 for code `c`. -/
def row (c : BitVec 8) : Format → OpcodeRow
  | r sd sa sb _ => ⟨c, wordR c 0 0 0, maskWord sd.mask sa.mask sb.mask (.allOnes 4) (.allOnes 3) (.allOnes 5), .free⟩
  | i _ => ⟨c, wordR c 0 0 0, maskWord Slot.x.mask (.allOnes 4) 0#4 0#4 0#3 0#5, .free⟩
  | m sr max _ =>
    ⟨c, wordR c 0 0 0, maskWord sr.mask (.allOnes 4) (.allOnes 4) (.allOnes 4) (.allOnes 3) 0#5, .atMost max⟩
  | ml _ => ⟨c, wordR c 0 0 0, maskWord Slot.h.mask (.allOnes 4) (.allOnes 4) 0#4 (.allOnes 3) 0#5, .withCount⟩

/-- The commands the format gives have code `c`, are well-formed under the bound of the format, and have its words. -/
def Lawful (c : BitVec 8) : Format → Prop
  | r sd sa sb mk => ∀ d a b, (mk d a b).cmd = c ∧ (mk d a b).wf = true ∧
      encode (mk d a b) = wordR c (sd.bits d) (sa.bits a) (sb.bits b)
  | i mk => ∀ d imm, (mk d imm).cmd = c ∧ (mk d imm).wf = true ∧ encode (mk d imm) = wordI c (nibble d) imm
  | m sr max mk => ∀ r off, (mk r off).cmd = c ∧ (mk r off).wf = decide (off.toNat ≤ max) ∧
      encode (mk r off) = wordM c (sr.bits r) 0 off
  | ml mk => ∀ r off cnt, (mk r off cnt).cmd = c ∧ (mk r off cnt).wf = decide (off.toNat + cnt.toNat ≤ 28) ∧
      encode (mk r off cnt) = wordM c (nibble r) cnt off

variable {f : Format} {c : BitVec 8} {j : Instr} {w : CmdWord}

theorem Encodes.cmdField_eq (h : f.Encodes c j w) : cmdField w = c := by
  cases f with
  | r sd sa sb mk => obtain ⟨d, a, b, -, rfl⟩ := h; exact cmdField_wordR _ _ _ _
  | i mk => obtain ⟨d, imm, -, rfl⟩ := h; exact cmdField_wordI _ _ _
  | m sr max mk => obtain ⟨r, off, -, -, rfl⟩ := h; exact cmdField_wordM _ _ _ _
  | ml mk => obtain ⟨r, off, cnt, -, -, rfl⟩ := h; exact cmdField_wordM _ _ _ _

/-- What a lawful format decodes to has its code, is well-formed and has the word as its encoding. -/
theorem Encodes.of_lawful (hf : f.Lawful c) (h : f.Encodes c j w) : j.cmd = c ∧ j.wf = true ∧ encode j = w := by
  cases f with
  | r sd sa sb mk => obtain ⟨d, a, b, rfl, rfl⟩ := h; exact hf d a b
  | i mk => obtain ⟨d, imm, rfl, rfl⟩ := h; exact hf d imm
  | m sr max mk =>
    obtain ⟨r, off, hoff, rfl, rfl⟩ := h
    obtain ⟨hcmd, hwf, henc⟩ := hf r off
    exact ⟨hcmd, hwf.trans (decide_eq_true hoff), henc⟩
  | ml mk =>
    obtain ⟨r, off, cnt, hoff, rfl, rfl⟩ := h
    obtain ⟨hcmd, hwf, henc⟩ := hf r off cnt
    exact ⟨hcmd, hwf.trans (decide_eq_true hoff), henc⟩

/-- A format decodes exactly the words of its commands. -/
theorem decode_ok_iff (f : Format) (w : CmdWord) (j : Instr) : f.decode w = .ok j ↔ f.Encodes (cmdField w) j w := by
  cases f with
  | r sd sa sb mk =>
    simp only [decode, Encodes, formatR_ok_iff, Slot.read_ok_iff]
    constructor
    · rintro ⟨d, a, b, hd, ha, hb, hlow, hj⟩
      exact ⟨d, a, b, hj, by rw [← hd, ← ha, ← hb, wordR_of_fields w hlow]⟩
    · rintro ⟨d, a, b, hj, hw⟩
      exact ⟨d, a, b, by rw [← hw, rdField_wordR], by rw [← hw, raField_wordR], by rw [← hw, rbField_wordR],
        by rw [← hw, lowField_wordR], hj⟩
  | i mk =>
    simp only [decode, Encodes, formatI_ok_iff]
    constructor
    · rintro ⟨d, hd, ha, hj⟩
      exact ⟨d, immField w, hj, by rw [← hd, wordI_of_fields w ha]⟩
    · rintro ⟨d, imm, hj, hw⟩
      exact ⟨d, by rw [← hw, rdField_wordI], by rw [← hw, raField_wordI], by rw [← hw, immField_wordI, hj]⟩
  | m sr max mk =>
    simp only [decode, Encodes, formatM_ok_iff, Slot.read_ok_iff]
    constructor
    · rintro ⟨r, hr, hmid, hcnt, hgap, hoff, hj⟩
      exact ⟨r, offField w, hoff, hj, by rw [← hr, ← hcnt, wordM_of_fields w hmid hgap]⟩
    · rintro ⟨r, off, hoff, hj, hw⟩
      rw [← hw]
      simpa using ⟨r, rfl, hoff, hj⟩
  | ml mk =>
    simp only [decode, Encodes, formatML_ok_iff, hSlot_ok_iff]
    constructor
    · rintro ⟨r, hr, hmid, hgap, hoff, hj⟩
      exact ⟨r, offField w, cntField w, hoff, hj, by rw [← hr, wordM_of_fields w hmid hgap]⟩
    · rintro ⟨r, off, cnt, hoff, hj, hw⟩
      rw [← hw]
      simpa using ⟨r, rfl, hoff, hj⟩

/-- A format accepts exactly the words its row selects: each slot accepts a nibble when the mask's nibble is clear in
it, and each field that must be zero is masked by ones. -/
theorem exists_decode_iff_row (f : Format) (c : BitVec 8) (w : CmdWord) :
    (cmdField w = c ∧ ∃ j, f.decode w = .ok j) ↔
      (w &&& (f.row c).mask = (f.row c).pattern ∧ (f.row c).rule.holds w = true) := by
  cases f with
  | r sd sa sb mk =>
    simp only [decode, row, formatR_ok_iff, and_maskWord_iff, OffsetRule.holds, ← Slot.exists_read_iff,
      BitVec.and_allOnes, lowField_eq_zero_iff]
    constructor
    · rintro ⟨hc, j, d, a, b, hd, ha, hb, hlow, -⟩
      exact ⟨⟨hc, ⟨d, hd⟩, ⟨a, ha⟩, ⟨b, hb⟩, hlow⟩, trivial⟩
    · rintro ⟨⟨hc, ⟨d, hd⟩, ⟨a, ha⟩, ⟨b, hb⟩, hlow⟩, -⟩
      exact ⟨hc, _, d, a, b, hd, ha, hb, hlow, rfl⟩
  | i mk =>
    simp only [decode, row, formatI_ok_iff, and_maskWord_iff, OffsetRule.holds, ← Slot.exists_bits_iff,
      BitVec.and_allOnes, BitVec.and_zero]
    constructor
    · rintro ⟨hc, j, d, hd, ha, -⟩
      exact ⟨⟨hc, ⟨d, hd⟩, ha, rfl, rfl, rfl, rfl⟩, trivial⟩
    · rintro ⟨⟨hc, ⟨d, hd⟩, ha, -⟩, -⟩
      exact ⟨hc, _, d, hd, ha, rfl⟩
  | m sr max mk =>
    simp only [decode, row, formatM_ok_iff, and_maskWord_iff, OffsetRule.holds, ← Slot.exists_read_iff,
      BitVec.and_allOnes, BitVec.and_zero, midField_eq_zero_iff, decide_eq_true_eq]
    constructor
    · rintro ⟨hc, j, r, hr, ⟨ha, hb⟩, hcnt, hgap, hoff, -⟩
      exact ⟨⟨hc, ⟨r, hr⟩, ha, hb, hcnt, hgap, rfl⟩, hoff⟩
    · rintro ⟨⟨hc, ⟨r, hr⟩, ha, hb, hcnt, hgap, -⟩, hoff⟩
      exact ⟨hc, _, r, hr, ⟨ha, hb⟩, hcnt, hgap, hoff, rfl⟩
  | ml mk =>
    simp only [decode, row, formatML_ok_iff, and_maskWord_iff, OffsetRule.holds, ← Slot.exists_read_iff,
      BitVec.and_allOnes, BitVec.and_zero, midField_eq_zero_iff, decide_eq_true_eq]
    constructor
    · rintro ⟨hc, j, r, hr, ⟨ha, hb⟩, hgap, hoff, -⟩
      exact ⟨⟨hc, ⟨r, hr⟩, ha, hb, rfl, hgap, rfl⟩, hoff⟩
    · rintro ⟨⟨hc, ⟨r, hr⟩, ha, hb, -, hgap, -⟩, hoff⟩
      exact ⟨hc, _, r, hr, ⟨ha, hb⟩, hgap, hoff, rfl⟩

end Format

end Sys2Proof
end

section
/-! SUPPORT. The decoder as a table of formats: which one a command code has, and that the rows of R62 are the rows of
these formats. -/

namespace Sys2Proof

/-- The format and slots of each assigned code (R62): the decoder's arms as data, so that a fact about formats is a fact
about every arm. `decode_eq_formatOf` ties it to the decoder, `formatOf_lawful` and `exists_format_encodes` to the
encoder, `map_row_formatOf` to the table. -/
def formatOf (c : BitVec 8) : Option Format :=
  match c.toNat with
  | 0x01 => some (.i .xli)
  | 0x02 => some (.i .xlih)
  | 0x03 => some (.r .x .x .zero (fun d a _ => .xmov d a))
  | 0x04 => some (.m .x 27 .ldb)
  | 0x05 => some (.m .x 27 .stb)
  | 0x10 => some (.r .n .n .zero (fun d a _ => .nmov d a))
  | 0x11 => some (.r .n .x .zero (fun d a _ => .nfromx d a))
  | 0x12 => some (.r .x .n .zero (fun d a _ => .ntox d a))
  | 0x13 => some (.m .n 24 .nld)
  | 0x14 => some (.m .n 24 .nst)
  | 0x15 => some (.r .n .n .zero (fun d a _ => .nnot d a))
  | 0x16 => some (.r .n .n .n .nand)
  | 0x17 => some (.r .n .n .n .nor)
  | 0x18 => some (.r .n .n .n .nxor)
  | 0x20 => some (.r .n .n .x .nadd)
  | 0x21 => some (.r .n .n .x .nsub)
  | 0x22 => some (.r .n .zero .zero (fun d _ _ => .ninc d))
  | 0x23 => some (.r .n .zero .zero (fun d _ _ => .ndec d))
  | 0x24 => some (.r .n .n .zero (fun d a _ => .nincp d a))
  | 0x25 => some (.r .n .n .zero (fun d a _ => .ndecp d a))
  | 0x26 => some (.r .x .n .n .neq)
  | 0x27 => some (.r .x .n .n .nlt)
  | 0x28 => some (.r .x .n .zero (fun d a _ => .nismask d a))
  | 0x29 => some (.r .n .n .n .nnet)
  | 0x2A => some (.r .n .n .n .nbcast)
  | 0x30 => some (.r .h .h .zero (fun d a _ => .hmov d a))
  | 0x31 => some (.m .h 22 .hld)
  | 0x32 => some (.ml .hldl)
  | 0x33 => some (.m .h 22 .hst)
  | 0x34 => some (.r .x .h .h .heq)
  | 0x35 => some (.r .x .h .h .hne)
  | 0x36 => some (.r .x .h .zero (fun d a _ => .hisnull d a))
  | 0x37 => some (.r .h .zero .zero (fun d _ _ => .hsetbc d))
  | 0x40 => some (.r .zero .zero .zero (fun _ _ _ => .finit))
  | 0x41 => some (.r .zero .zero .zero (fun _ _ _ => .fenc))
  | 0x42 => some (.r .zero .zero .zero (fun _ _ _ => .fdec))
  | 0x50 => some (.r .zero .x .zero (fun _ a _ => .fshtype a))
  | 0x51 => some (.r .zero .x .zero (fun _ a _ => .fsptype a))
  | 0x52 => some (.r .zero .x .zero (fun _ a _ => .fshlen a))
  | 0x53 => some (.r .zero .x .zero (fun _ a _ => .fsplen a))
  | 0x54 => some (.r .zero .x .zero (fun _ a _ => .fsoper a))
  | 0x55 => some (.r .zero .h .zero (fun _ a _ => .fssha a))
  | 0x56 => some (.r .zero .n .zero (fun _ a _ => .fsspa a))
  | 0x57 => some (.r .zero .h .zero (fun _ a _ => .fstha a))
  | 0x58 => some (.r .zero .n .zero (fun _ a _ => .fstpa a))
  | 0x60 => some (.r .x .zero .zero (fun d _ _ => .fghtype d))
  | 0x61 => some (.r .x .zero .zero (fun d _ _ => .fgptype d))
  | 0x62 => some (.r .x .zero .zero (fun d _ _ => .fghlen d))
  | 0x63 => some (.r .x .zero .zero (fun d _ _ => .fgplen d))
  | 0x64 => some (.r .x .zero .zero (fun d _ _ => .fgoper d))
  | 0x65 => some (.r .h .zero .zero (fun d _ _ => .fgsha d))
  | 0x66 => some (.r .n .zero .zero (fun d _ _ => .fgspa d))
  | 0x67 => some (.r .h .zero .zero (fun d _ _ => .fgtha d))
  | 0x68 => some (.r .n .zero .zero (fun d _ _ => .fgtpa d))
  | _ => none

/-! Case `h_55` of a split below is the last arm, that of the reserved codes. -/

theorem decode_eq_formatOf (w : CmdWord) :
    decode w = (formatOf (cmdField w)).elim (.error .reservedCmd) (fun f => f.decode w) := by
  unfold decode formatOf
  generalize (cmdField w).toNat = k
  split
  case h_55 => simp [*]
  all_goals rfl

/-- The commands of every arm have the arm's code, its bound and its words. -/
theorem formatOf_lawful {c : BitVec 8} {f : Format} (h : formatOf c = some f) : f.Lawful c := by
  obtain ⟨k, hk⟩ : ∃ k, c.toNat = k := ⟨_, rfl⟩
  obtain rfl : c = .ofNat 8 k := by rw [← hk, BitVec.ofNat_toNat, BitVec.setWidth_eq]
  rw [formatOf, hk] at h
  clear hk
  split at h
  case h_55 => cases h
  all_goals
    cases h
    dsimp only [Format.Lawful]
    intros
    exact ⟨rfl, rfl, rfl⟩

/-- The word of a well-formed command is one its code's format reads; the cases stand in groups by the slots that the
command leaves unused. -/
theorem exists_format_encodes {j : Instr} (hwf : j.wf = true) :
    ∃ f, formatOf j.cmd = some f ∧ f.Encodes j.cmd j (encode j) := by
  cases j
  case nand | nor | nxor | nadd | nsub | neq | nlt | nnet | nbcast | heq | hne =>
    exact ⟨_, rfl, _, _, _, rfl, rfl⟩
  case xmov | nmov | nfromx | ntox | nnot | nincp | ndecp | nismask | hmov | hisnull =>
    exact ⟨_, rfl, _, _, (), rfl, rfl⟩
  case ninc | ndec | hsetbc | fghtype | fgptype | fghlen | fgplen | fgoper | fgsha | fgspa | fgtha | fgtpa =>
    exact ⟨_, rfl, _, (), (), rfl, rfl⟩
  case fshtype | fsptype | fshlen | fsplen | fsoper | fssha | fsspa | fstha | fstpa =>
    exact ⟨_, rfl, (), _, (), rfl, rfl⟩
  case finit | fenc | fdec =>
    exact ⟨_, rfl, (), (), (), rfl, rfl⟩
  case xli | xlih =>
    exact ⟨_, rfl, _, _, rfl, rfl⟩
  case ldb | stb | nld | nst | hld | hst =>
    exact ⟨_, rfl, _, _, of_decide_eq_true hwf, rfl, rfl⟩
  case hldl =>
    exact ⟨_, rfl, _, _, _, of_decide_eq_true hwf, rfl, rfl⟩

theorem decode_of_formatOf {f : Format} {w : CmdWord} (h : formatOf (cmdField w) = some f) : decode w = f.decode w := by
  rw [decode_eq_formatOf, h, Option.elim_some]

/-- Everything the decoder accepts: a word of a command of the format its code has. -/
theorem decode_ok_iff (w : CmdWord) (j : Instr) :
    decode w = .ok j ↔ ∃ f, formatOf (cmdField w) = some f ∧ f.Encodes (cmdField w) j w := by
  rw [decode_eq_formatOf]
  cases h : formatOf (cmdField w) with
  | none => simp
  | some f => simp [f.decode_ok_iff]

theorem cmd_of_decode {w : CmdWord} {j : Instr} (h : decode w = .ok j) : j.cmd = cmdField w := by
  obtain ⟨f, hf, henc⟩ := (decode_ok_iff w j).mp h
  exact (henc.of_lawful (formatOf_lawful hf)).1

/-! ### The rows of R62 -/

theorem map_row_formatOf : ∀ row ∈ opcodeRows, (formatOf row.cmd).map (Format.row row.cmd) = some row := by
  decide

theorem exists_format_of_row {row : OpcodeRow} (h : row ∈ opcodeRows) :
    ∃ f, formatOf row.cmd = some f ∧ f.row row.cmd = row :=
  Option.map_eq_some_iff.mp (map_row_formatOf row h)

/-- Every command has a row. -/
theorem exists_row_of_cmd (j : Instr) : ∃ row ∈ opcodeRows, row.cmd = j.cmd := by
  have hmem : j.cmd ∈ opcodeRows.map OpcodeRow.cmd := by
    cases j <;> (simp only [Instr.cmd]; decide)
  exact List.mem_map.mp hmem

end Sys2Proof
end

section
/-! SUPPORT. The four commands the pseudo-instructions expand to, and a constant put together from its halves. -/

namespace Sys2Proof.Machine

open Sys2Proof.Safety

theorem exec_xli (d : XReg) (imm : BitVec 16) (s : State) :
    exec (.xli d imm) s = .next ((s.setX d (zext32 imm)).complete .ok) := rfl

theorem exec_xlih (d : XReg) (imm : BitVec 16) (s : State) :
    exec (.xlih d imm) s = .next ((s.setX d (withUpperHalf imm (s.getX d))).complete .ok) := rfl

theorem exec_nfromx (d : NReg) (a : XReg) (s : State) :
    exec (.nfromx d a) s = .next ((s.setN d (s.getX a)).complete .ok) := rfl

theorem exec_nlt (d : XReg) (a b : NReg) (s : State) :
    exec (.nlt d a b) s =
      .next ((s.setX d (boolX (isBefore Config.rawLe (s.getN a) (s.getN b)))).complete .ok) := rfl

/-- The two 16-bit halves of a constant, put together as `XLI` and `XLIH` do (R161, R162), are the constant. -/
theorem withUpperHalf_zext32 (v : BitVec 32) :
    withUpperHalf (v.extractLsb' 16 16) (zext32 (v.extractLsb' 0 16)) = v := by
  unfold withUpperHalf zext32
  apply BitVec.eq_of_getLsbD_eq
  intro i hi
  by_cases h : i < 16
  · simp [h, hi]
  · simp [h, hi, show i - 16 < 16 by omega, show 16 + (i - 16) = i by omega]

theorem onlyX_setX_complete (s : State) (d : XReg) (v : Scalar) (c : Code) : OnlyX d s ((s.setX d v).complete c) :=
  ⟨fun _ hr => State.getX_setX_of_ne s _ _ v hr, fun _ => rfl, fun _ => rfl, rfl, fun _ => rfl⟩

theorem onlyX_trans {d : XReg} {s t u : State} (h₁ : OnlyX d s t) (h₂ : OnlyX d t u) : OnlyX d s u := by
  obtain ⟨hx₁, hn₁, hh₁, hf₁, hwb₁⟩ := h₁
  obtain ⟨hx₂, hn₂, hh₂, hf₂, hwb₂⟩ := h₂
  exact ⟨fun r hr => (hx₂ r hr).trans (hx₁ r hr), fun r => (hn₂ r).trans (hn₁ r), fun r => (hh₂ r).trans (hh₁ r),
    hf₂.trans hf₁, fun o => (hwb₂ o).trans (hwb₁ o)⟩

/-- `XLI` of the lower half and `XLIH` of the upper half load a 32-bit constant. -/
theorem exec_xli_xlih (d : XReg) (v : BitVec 32) (s : State) :
    ∃ t u, exec (.xli d (v.extractLsb' 0 16)) s = .next t ∧ exec (.xlih d (v.extractLsb' 16 16)) t = .next u ∧
      t.st = .ok ∧ u.st = .ok ∧ u.getX d = v ∧ OnlyX d s u := by
  refine ⟨_, _, exec_xli .., exec_xlih .., rfl, rfl, ?_, ?_⟩
  · rw [State.getX_complete, State.getX_setX_self, State.getX_complete, State.getX_setX_self, withUpperHalf_zext32]
  · exact onlyX_trans (onlyX_setX_complete ..) (onlyX_setX_complete ..)

end Sys2Proof.Machine
end

section
/-! The statements of 30_encoding.md. -/

namespace Sys2Proof.Machine

open Sys2Proof.Safety

/-- Settles O5: the word of a command is one that the format of its code reads. -/
theorem decodeOfEncodeIsTheCommand : Obligations.DecodeOfEncodeIsTheCommand := by
  intro j hwf
  obtain ⟨f, hf, henc⟩ := exists_format_encodes hwf
  rw [decode_ok_iff, henc.cmdField_eq]
  exact ⟨f, hf, henc⟩

/-- Settles O6: what an arm of the decoder accepts is the word of one of the arm's commands. -/
theorem decodeAcceptsOnlyEncodings : Obligations.DecodeAcceptsOnlyEncodings := by
  intro w j h
  obtain ⟨f, hf, henc⟩ := (decode_ok_iff w j).mp h
  exact (henc.of_lawful (formatOf_lawful hf)).2

/-- Settles O7: the row is the row of its code's format, and the decoder answers what that format does. -/
theorem decodeAgreesWithMatchAndMask : Obligations.DecodeAgreesWithMatchAndMask := by
  intro row hrow w
  obtain ⟨f, hf, hfrow⟩ := exists_format_of_row hrow
  rw [← hfrow, ← f.exists_decode_iff_row row.cmd w, hfrow]
  constructor
  · rintro ⟨j, hj, hcmd⟩
    have hc : cmdField w = row.cmd := (cmd_of_decode hj).symm.trans hcmd
    exact ⟨hc, j, (decode_of_formatOf (hc ▸ hf)).symm.trans hj⟩
  · rintro ⟨hc, j, hj⟩
    have hdec : decode w = .ok j := (decode_of_formatOf (hc ▸ hf)).trans hj
    exact ⟨j, hdec, (cmd_of_decode hdec).trans hc⟩

/-- Settles O8: a row with the word's code selects it exactly when the decoder accepts it. -/
theorem illegalWordsAreExactlyTheUnmatched : Obligations.IllegalWordsAreExactlyTheUnmatched := by
  intro w
  constructor
  · rintro ⟨e, he⟩
    by_cases hcode : ∃ row ∈ opcodeRows, row.cmd = cmdField w
    · obtain ⟨row, hrow, hc⟩ := hcode
      refine .inr ⟨row, hrow, hc, ?_⟩
      by_contra! hsel
      obtain ⟨hmatch, hrule⟩ := hsel
      obtain ⟨j, hj, -⟩ := (decodeAgreesWithMatchAndMask row hrow w).mpr ⟨hmatch, by simpa using hrule⟩
      simp [he] at hj
    · exact .inl fun row hrow hc => hcode ⟨row, hrow, hc⟩
  · intro h
    cases hdec : decode w with
    | error e => exact ⟨e, rfl⟩
    | ok j =>
      have hcmd := cmd_of_decode hdec
      rcases h with hnone | ⟨row, hrow, hc, hfail⟩
      · obtain ⟨row, hrow, hc⟩ := exists_row_of_cmd j
        exact absurd (hc.trans hcmd) (hnone row hrow)
      · obtain ⟨hmatch, hrule⟩ := (decodeAgreesWithMatchAndMask row hrow w).mp ⟨j, hdec, hcmd.trans hc.symm⟩
        simp [hmatch, hrule] at hfail

/-- Settles O59: NGT is NLT with the operands exchanged; NLI is XLI32's pair of commands, then NFROMX. -/
theorem pseudoInstructionsDoWhatTheirTableSays : Obligations.PseudoInstructionsDoWhatTheirTableSays := by
  intro d a b e imm v s
  refine ⟨⟨_, _, rfl, exec_nlt d b a s, fun h => ?_, fun h => ?_, rfl, onlyX_setX_complete ..⟩, ?_, ?_⟩
  · rw [State.getX_complete, State.getX_setX_self, h, boolX_true]
  · rw [State.getX_complete, State.getX_setX_self, h, boolX_false]
  · obtain ⟨t, u, hxli, hxlih, htst, hust, hval, honly⟩ := exec_xli_xlih d imm s
    exact ⟨_, _, t, u, rfl, hxli, hxlih, htst, hust, hval, honly⟩
  · obtain ⟨t, u, hxli, hxlih, htst, hust, hval, hx, hn, hh, hf, hwb⟩ := exec_xli_xlih d v s
    refine ⟨_, _, _, t, u, _, rfl, hxli, hxlih, exec_nfromx e d u, htst, hust, rfl, ?_, hval, hx, fun r hr => ?_, hh, hf,
      hwb⟩
    · rw [State.getN_complete, State.getN_setN_self, hval]
    · rw [State.getN_complete, State.getN_setN_of_ne _ _ _ _ hr, hn r]

/-- Settles O4: each word is the one the command encodes to. -/
theorem decodedSampleWords : Obligations.DecodedSampleWords :=
  ⟨decodeOfEncodeIsTheCommand (.xlih 1 0xC0A8) rfl, decodeOfEncodeIsTheCommand (.nld 2 14) rfl,
    decodeOfEncodeIsTheCommand (.nadd 2 0 1) rfl, decodeOfEncodeIsTheCommand (.hldl 2 2 9) rfl,
    decodeOfEncodeIsTheCommand (.fssha 0) rfl, decodeOfEncodeIsTheCommand (.fgtpa 3) rfl⟩

end Sys2Proof.Machine
end

section
/-! SUPPORT. The words of format M outside the bound of R58. -/

namespace Sys2Proof

/-- A format M word whose fields are right but whose offset is past the bound is illegal for that reason alone. -/
theorem Format.decode_wordM_of_gt {α : Type} (sr : Slot α) (r : α) {max : Nat} (mk : α → BitVec 5 → Instr)
    (c : BitVec 8) {off : BitVec 5} (h : max < off.toNat) :
    (Format.m sr max mk).decode (wordM c (sr.bits r) 0 off) = .error .offsetBound := by
  have hr : sr.read (sr.bits r) = .ok r := (sr.read_ok_iff _ r).mpr rfl
  have hbound : decide (off.toNat ≤ max) = false := decide_eq_false (by omega)
  simp only [Format.decode, formatM, rdField_wordM, midField_wordM, cntField_wordM, gapField_wordM, offField_wordM, hr,
    hbound]
  rfl

theorem decode_wordM_of_gt {α : Type} {sr : Slot α} {max : Nat} {mk : α → BitVec 5 → Instr} {c : BitVec 8}
    (hc : formatOf c = some (.m sr max mk)) (r : α) {off : BitVec 5} (h : max < off.toNat) :
    decode (wordM c (sr.bits r) 0 off) = .error .offsetBound := by
  rw [decode_of_formatOf (f := .m sr max mk) (by rw [cmdField_wordM, hc]), Format.decode_wordM_of_gt sr r mk c h]

end Sys2Proof
end

section
/-! SUPPORT. How a NetworkAddress command ends, said once per kind of write: what it gives, and its frame. -/

namespace Sys2Proof.Machine

open Sys2Proof.Safety

/-! ### Frames -/

theorem onlyST_complete (s : State) (c : Code) : OnlyST s (s.complete c) :=
  ⟨fun _ => rfl, fun _ => rfl, fun _ => rfl, rfl, fun _ => rfl⟩

theorem onlyN_setN_complete (s : State) (d : NReg) (v : NetAddr) (c : Code) : OnlyN d s ((s.setN d v).complete c) :=
  ⟨fun _ hr => State.getN_setN_of_ne s _ _ v hr, fun _ => rfl, fun _ => rfl, rfl, fun _ => rfl⟩

theorem State.byte_memWrite_of_outside (s : State) {off o : Nat} {bs : List Byte}
    (h : ¬ (off ≤ o ∧ o < off + bs.length)) : (s.memWrite off bs).byte o = s.byte o :=
  (readByte_writeBytes bs s.wb off o).trans (if_neg h)

theorem onlyWB_memWrite_complete (s : State) (off : Nat) (bs : List Byte) (c : Code) :
    OnlyWB off bs.length s ((s.memWrite off bs).complete c) :=
  ⟨fun _ ho => s.byte_memWrite_of_outside ho, fun _ => rfl, fun _ => rfl, fun _ => rfl, rfl⟩

/-! ### Loading back what was stored -/

/-- The value loaded from the bytes just stored is the value stored. -/
theorem State.frombe_memRead_memWrite_be (s : State) (off : Nat) {w n : Nat} (v : BitVec w) (hw : w = 8 * n) :
    frombe w ((s.memWrite off (be v n)).memRead off n) = v := by
  have hread : (s.memWrite off (be v n)).memRead off n = be v n := by
    have h := readBytes_writeBytes s.wb off (be v n)
    rwa [length_be] at h
  rw [hread, frombe_be v n hw]

/-! ### Commands that write one register -/

theorem State.getN_setN_complete (s : State) (d : NReg) (v : NetAddr) (c : Code) :
    ((s.setN d v).complete c).getN d = v :=
  s.getN_setN_self d v

theorem State.getX_setX_complete (s : State) (d : XReg) (v : Scalar) (c : Code) :
    ((s.setX d v).complete c).getX d = v :=
  s.getX_setX_self d v

theorem exec_nmov (d a : NReg) (s : State) :
    exec (.nmov d a) s = .next ((s.setN d (s.getN a)).complete .ok) := rfl

theorem exec_ntox (d : XReg) (a : NReg) (s : State) :
    exec (.ntox d a) s = .next ((s.setX d (s.getN a)).complete .ok) := rfl

theorem exec_nnot (d a : NReg) (s : State) :
    exec (.nnot d a) s = .next ((s.setN d (~~~ s.getN a)).complete .ok) := rfl

theorem exec_nand (d a b : NReg) (s : State) :
    exec (.nand d a b) s = .next ((s.setN d (s.getN a &&& s.getN b)).complete .ok) := rfl

theorem exec_nor (d a b : NReg) (s : State) :
    exec (.nor d a b) s = .next ((s.setN d (s.getN a ||| s.getN b)).complete .ok) := rfl

theorem exec_nxor (d a b : NReg) (s : State) :
    exec (.nxor d a b) s = .next ((s.setN d (s.getN a ^^^ s.getN b)).complete .ok) := rfl

theorem exec_nnet (d a b : NReg) (s : State) :
    exec (.nnet d a b) s = .next ((s.setN d (s.getN a &&& s.getN b)).complete .ok) := rfl

theorem exec_nbcast (d a b : NReg) (s : State) :
    exec (.nbcast d a b) s = .next ((s.setN d (s.getN a ||| ~~~ s.getN b)).complete .ok) := rfl

theorem exec_neq (d : XReg) (a b : NReg) (s : State) :
    exec (.neq d a b) s = .next ((s.setX d (boolX (s.getN a == s.getN b))).complete .ok) := rfl

theorem exec_nismask (d : XReg) (a : NReg) (s : State) :
    exec (.nismask d a) s = .next ((s.setX d (boolX (isValidMask (s.getN a)))).complete .ok) := rfl

@[simp] theorem boolX_eq_one_iff (b : Bool) : boolX b = 1 ↔ b = true := by
  cases b <;> decide

@[simp] theorem boolX_eq_zero_iff (b : Bool) : boolX b = 0 ↔ b = false := by
  cases b <;> decide

end Sys2Proof.Machine
end

section
/-! SUPPORT. The range-checked commands (40_network_address.md R90): what they do with an exact result in range, above
it and below it. `NADD`, `NSUB`, `NINC` and `NDEC` write the result, `NINCP` and `NDECP` the old value after it. -/

namespace Sys2Proof.Machine

open Sys2Proof.Safety

theorem exists_next_arith_above {r : Int} (wr : NetAddr → State) (s : State) (h : r > 0xFFFFFFFF) :
    ∃ t, arith r wr s = .next t ∧ t.st = .overflow ∧ OnlyST s t :=
  ⟨_, arith_above wr s h, rfl, onlyST_complete ..⟩

theorem exists_next_arith_below {r : Int} (wr : NetAddr → State) (s : State) (h : r < 0) :
    ∃ t, arith r wr s = .next t ∧ t.st = .underflow ∧ OnlyST s t :=
  ⟨_, arith_below wr s h, rfl, onlyST_complete ..⟩

theorem exists_next_arith_setN {r : Int} (d : NReg) (s : State) (h0 : 0 ≤ r) (h1 : r ≤ 0xFFFFFFFF) :
    ∃ t, arith r (fun v => s.setN d v) s = .next t ∧ ((t.getN d).toNat : Int) = r ∧ t.st = .ok ∧ OnlyN d s t := by
  refine ⟨_, arith_in_range _ s h0 h1, ?_, rfl, onlyN_setN_complete ..⟩
  rw [State.getN_setN_complete, toNat_ofInt_in_range h0 h1]

/-- The second write stands, so `N[a]` shows the result only where `d` is another register. -/
theorem exists_next_arith_setN_setN {r : Int} (d a : NReg) (s : State) (h0 : 0 ≤ r) (h1 : r ≤ 0xFFFFFFFF) :
    ∃ t, arith r (fun v => (s.setN a v).setN d (s.getN a)) s = .next t ∧ t.getN d = s.getN a ∧
      (d ≠ a → ((t.getN a).toNat : Int) = r) ∧ t.st = .ok ∧ (∀ q, q ≠ d → q ≠ a → t.getN q = s.getN q) ∧
      KeepsX s t ∧ KeepsH s t ∧ KeepsF s t ∧ KeepsWB s t := by
  refine ⟨_, arith_in_range _ s h0 h1, ?_, fun hda => ?_, rfl, fun q hqd hqa => ?_, fun _ => rfl, fun _ => rfl, rfl,
    fun _ => rfl⟩
  · rw [State.getN_setN_complete]
  · rw [State.getN_complete, State.getN_setN_of_ne _ _ _ _ hda.symm, State.getN_setN_self, toNat_ofInt_in_range h0 h1]
  · rw [State.getN_complete, State.getN_setN_of_ne _ _ _ _ hqd, State.getN_setN_of_ne _ _ _ _ hqa]

/-! ### An address and its neighbours -/

theorem uval_nonneg (v : NetAddr) : 0 ≤ uval v := Int.natCast_nonneg _

theorem uval_le (v : NetAddr) : uval v ≤ 0xFFFFFFFF := by
  have := v.isLt
  simp only [uval]
  omega

theorem uval_add_one_gt_iff (v : NetAddr) : uval v + 1 > 0xFFFFFFFF ↔ v = 0xFFFFFFFF := by
  have hlt := v.isLt
  rw [← BitVec.toNat_inj, uval, show (0xFFFFFFFF : NetAddr).toNat = 0xFFFFFFFF from rfl]
  omega

theorem uval_sub_one_lt_iff (v : NetAddr) : uval v - 1 < 0 ↔ v = 0 := by
  rw [← BitVec.toNat_inj, uval, show (0 : NetAddr).toNat = 0 from rfl]
  omega

/-- Away from the top the successor of an address is in range. -/
theorem uval_add_one_in_range {v : NetAddr} (h : v ≠ 0xFFFFFFFF) : 0 ≤ uval v + 1 ∧ uval v + 1 ≤ 0xFFFFFFFF := by
  have hnot := mt (uval_add_one_gt_iff v).mp h
  have hnonneg := uval_nonneg v
  omega

/-- Away from the bottom the predecessor of an address is in range. -/
theorem uval_sub_one_in_range {v : NetAddr} (h : v ≠ 0) : 0 ≤ uval v - 1 ∧ uval v - 1 ≤ 0xFFFFFFFF := by
  have hnot := mt (uval_sub_one_lt_iff v).mp h
  have hle := uval_le v
  omega

theorem toNat_eq_add_one {u v : NetAddr} (h : (u.toNat : Int) = uval v + 1) : u.toNat = v.toNat + 1 := by
  simp only [uval] at h
  omega

theorem toNat_add_one_eq {u v : NetAddr} (h : (u.toNat : Int) = uval v - 1) : u.toNat + 1 = v.toNat := by
  simp only [uval] at h
  omega

end Sys2Proof.Machine
end

section
/-! SUPPORT. The ordering of addresses (R99) and the mask test (R100, R104). -/

namespace Sys2Proof.Machine

/-- Byte `k` from the bottom of the swapped value is byte `k` from the top. -/
theorem extractLsb'_bswap32 (v : BitVec 32) {k : Nat} (hk : k < 4) :
    (bswap32 v).extractLsb' (8 * k) 8 = v.extractLsb' (24 - 8 * k) 8 := by
  have hbyte : (be v 4).reverse[3 - k]? = some (v.extractLsb' (24 - 8 * k) 8) := by
    rw [List.getElem?_reverse (by simp only [length_be]; omega), length_be, getElem?_be, if_pos (by omega)]
    congr 2
    omega
  have h := extractLsb'_frombe (w := 32) (n := 4) (by simp) (by decide) hbyte
  rwa [show 8 * (4 - 1 - (3 - k)) = 8 * k by omega] at h

theorem isBefore_eq_false_iff (le : Bool) (v w : NetAddr) :
    isBefore le v w = false ↔ (orderKey le w).toNat ≤ (orderKey le v).toNat := by
  rw [← Bool.not_eq_true, isBefore_iff, Nat.not_lt]

theorem orderKey_toNat_eq_iff (le : Bool) (v w : NetAddr) :
    (orderKey le v).toNat = (orderKey le w).toNat ↔ v = w :=
  ⟨fun h => orderKey_inj (BitVec.eq_of_toNat_eq h), fun h => by rw [h]⟩

/-! ### The mask test in unbounded naturals -/

theorem lowByte_eq_iff (v : NetAddr) (b : Byte) : v.extractLsb' 0 8 = b ↔ v.toNat % 256 = b.toNat := by
  rw [← BitVec.toNat_inj, BitVec.extractLsb'_toNat, Nat.shiftRight_zero]

theorem isValidMask_iff (v : NetAddr) : isValidMask v = true ↔
    v.toNat ≠ 0 ∧ v.toNat % 256 ≠ 254 ∧ v.toNat % 256 ≠ 255 ∧
      (2 ^ 32 - 1 - v.toNat + 1) &&& (2 ^ 32 - 1 - v.toNat) = 0 := by
  have hzero : v = 0 ↔ v.toNat = 0 := BitVec.toNat_inj.symm
  simp only [isValidMask, Bool.and_eq_true, bne_iff_ne, beq_iff_eq, ne_eq, lowByte_eq_iff, hzero, BitVec.toNat_not,
    and_assoc]
  rfl

/-! ### The masks that pass -/

/-- A number and its successor share no bit exactly when the successor is a power of two. -/
theorem succ_and_self_eq_zero_iff {c : Nat} (hc : c < 2 ^ 32) :
    (c + 1) &&& c = 0 ↔ ∃ k, k ≤ 32 ∧ c = 2 ^ k - 1 := by
  have hpow : (c + 1) &&& c = 0 ↔ (c + 1).isPowerOfTwo := Nat.and_sub_one_eq_zero_iff_isPowerOfTwo (Nat.succ_ne_zero c)
  rw [hpow]
  constructor
  · rintro ⟨k, hk⟩
    have hle : 2 ^ k ≤ 2 ^ 32 := by omega
    exact ⟨k, (Nat.pow_le_pow_iff_right (by decide)).mp hle, by omega⟩
  · rintro ⟨k, -, hk⟩
    have hpos : 0 < 2 ^ k := Nat.two_pow_pos k
    exact ⟨k, by omega⟩

theorem toNat_not_netmask {k : Nat} (hk : k ≤ 32) : (~~~((0xFFFFFFFF : BitVec 32) <<< k)).toNat = 2 ^ k - 1 := by
  interval_cases k <;> rfl

/-- An address is the netmask with `k` host bits exactly when its complement is `2^k - 1`. -/
theorem toNat_not_eq_iff (v : NetAddr) {k : Nat} (hk : k ≤ 32) :
    (~~~v).toNat = 2 ^ k - 1 ↔ v = (0xFFFFFFFF : BitVec 32) <<< k := by
  rw [← toNat_not_netmask hk, BitVec.toNat_inj, BitVec.not_inj]

theorem complementTest_iff (v : NetAddr) :
    ((~~~v).toNat + 1) &&& (~~~v).toNat = 0 ↔ ∃ k, k ≤ 32 ∧ (~~~v).toNat = 2 ^ k - 1 :=
  succ_and_self_eq_zero_iff (~~~v).isLt

/-- Of the 33 netmasks, the first two tests refuse /32 and /31 by their low byte and /0 as zero. -/
theorem isValidMask_netmask_iff : ∀ k, k ≤ 32 →
    (isValidMask ((0xFFFFFFFF : BitVec 32) <<< k) = true ↔ 2 ≤ k ∧ k ≤ 31) := by
  decide

theorem isValidMask_iff_netmask (v : NetAddr) :
    isValidMask v = true ↔ ∃ k, 2 ≤ k ∧ k ≤ 31 ∧ v = (0xFFFFFFFF : BitVec 32) <<< k := by
  constructor
  · intro h
    have htest : ((~~~v).toNat + 1) &&& (~~~v).toNat = 0 := by
      simp only [isValidMask, Bool.and_eq_true, beq_iff_eq] at h
      exact h.2
    obtain ⟨k, hk, hc⟩ := (complementTest_iff v).mp htest
    obtain rfl := (toNat_not_eq_iff v hk).mp hc
    obtain ⟨h2, h31⟩ := (isValidMask_netmask_iff k hk).mp h
    exact ⟨k, h2, h31, rfl⟩
  · rintro ⟨k, h2, h31, rfl⟩
    exact (isValidMask_netmask_iff k (by omega)).mpr ⟨h2, h31⟩

theorem netmask_injective {j k : Nat} (hj : j ≤ 32) (hk : k ≤ 32)
    (h : (0xFFFFFFFF : BitVec 32) <<< j = (0xFFFFFFFF : BitVec 32) <<< k) : j = k := by
  have hcomplement : 2 ^ j - 1 = 2 ^ k - 1 := by rw [← toNat_not_netmask hj, ← toNat_not_netmask hk, h]
  have hposj : 0 < 2 ^ j := Nat.two_pow_pos j
  have hposk : 0 < 2 ^ k := Nat.two_pow_pos k
  exact Nat.pow_right_injective (le_refl 2) (show 2 ^ j = 2 ^ k by omega)

end Sys2Proof.Machine
end

section
/-! The statements of 40_network_address.md. -/

namespace Sys2Proof.Machine

open Sys2Proof.Safety

/-- Settles O29: the loaded value is joined from the four bytes, the first in bits 31:24. -/
theorem networkLoadIsBigEndian : Obligations.NetworkLoadIsBigEndian := by
  intro r off s
  refine ⟨fun h => ⟨decodeOfEncodeIsTheCommand (.nld r off) (decide_eq_true h), _, exec_nld r h s, fun k hk => ?_, rfl,
    onlyN_setN_complete ..⟩, fun h => decode_wordM_of_gt (c := 0x13) (sr := .n) rfl r h⟩
  rw [show 24 - 8 * k = 8 * (4 - 1 - k) by omega, State.getN_setN_complete,
    State.extractLsb'_frombe_memRead s (by decide) hk]

/-- Settles O30: the bytes stored are those of the value, so a load of them gives it back. -/
theorem networkStoreIsBigEndian : Obligations.NetworkStoreIsBigEndian := by
  intro r off s
  refine ⟨fun h => ⟨decodeOfEncodeIsTheCommand (.nst r off) (decide_eq_true h), _, exec_nst r h s, fun k hk => ?_, rfl,
    ?_, fun q => ⟨_, exec_nld q h _, ?_⟩⟩, fun h => decode_wordM_of_gt (c := 0x14) (sr := .n) rfl r h⟩
  · rw [show 24 - 8 * k = 8 * (4 - 1 - k) by omega, State.byte_complete, State.byte_memWrite_be s _ hk]
  · exact length_be (s.getN r) 4 ▸ onlyWB_memWrite_complete s off.toNat (be (s.getN r) 4) .ok
  · rw [State.getN_setN_complete]
    exact s.frombe_memRead_memWrite_be off.toNat (s.getN r) rfl

/-- Settles O32, from range-checked arithmetic on the exact sum. -/
theorem networkAddIsRangeChecked : Obligations.NetworkAddIsRangeChecked := fun d a b s =>
  ⟨decodeOfEncodeIsTheCommand (.nadd d a b) rfl, fun ⟨h0, h1⟩ => exists_next_arith_setN d s h0 h1,
    exists_next_arith_above _ s, exists_next_arith_below _ s⟩

/-- Settles O33, from range-checked arithmetic on the exact difference. -/
theorem networkSubIsRangeChecked : Obligations.NetworkSubIsRangeChecked := fun d a b s =>
  ⟨decodeOfEncodeIsTheCommand (.nsub d a b) rfl, fun ⟨h0, h1⟩ => exists_next_arith_setN d s h0 h1,
    exists_next_arith_above _ s, exists_next_arith_below _ s⟩

/-- Settles O34: only the neighbour of an address at its bound is out of range. -/
theorem networkIncrementAndDecrementInPlace : Obligations.NetworkIncrementAndDecrementInPlace := by
  intro d s
  refine ⟨⟨decodeOfEncodeIsTheCommand (.ninc d) rfl, fun h => ?_, fun h => ?_⟩,
    ⟨decodeOfEncodeIsTheCommand (.ndec d) rfl, fun h => ?_, fun h => ?_⟩⟩
  · obtain ⟨h0, h1⟩ := uval_add_one_in_range h
    obtain ⟨t, ht, hval, hst, honly⟩ := exists_next_arith_setN d s h0 h1
    exact ⟨t, ht, toNat_eq_add_one hval, hst, honly⟩
  · exact exists_next_arith_above _ s ((uval_add_one_gt_iff _).mpr h)
  · obtain ⟨h0, h1⟩ := uval_sub_one_in_range h
    obtain ⟨t, ht, hval, hst, honly⟩ := exists_next_arith_setN d s h0 h1
    exact ⟨t, ht, toNat_add_one_eq hval, hst, honly⟩
  · exact exists_next_arith_below _ s ((uval_sub_one_lt_iff _).mpr h)

/-- Settles O35: the write of the old value is the second one. -/
theorem networkPostfixFormsGiveTheOldValue : Obligations.NetworkPostfixFormsGiveTheOldValue := by
  intro d a s
  refine ⟨⟨decodeOfEncodeIsTheCommand (.nincp d a) rfl, fun h => ?_, fun h => ?_⟩,
    ⟨decodeOfEncodeIsTheCommand (.ndecp d a) rfl, fun h => ?_, fun h => ?_⟩⟩
  · obtain ⟨h0, h1⟩ := uval_add_one_in_range h
    obtain ⟨t, ht, hold, hval, hframe⟩ := exists_next_arith_setN_setN d a s h0 h1
    exact ⟨t, ht, hold, fun hda => toNat_eq_add_one (hval hda), hframe⟩
  · exact exists_next_arith_above _ s ((uval_add_one_gt_iff _).mpr h)
  · obtain ⟨h0, h1⟩ := uval_sub_one_in_range h
    obtain ⟨t, ht, hold, hval, hframe⟩ := exists_next_arith_setN_setN d a s h0 h1
    exact ⟨t, ht, hold, fun hda => toNat_add_one_eq (hval hda), hframe⟩
  · exact exists_next_arith_below _ s ((uval_sub_one_lt_iff _).mpr h)

/-- Settles O38: the order of addresses is that of the numbers their keys are, and the key is injective. -/
theorem orderingIsAStrictTotalOrder : Obligations.OrderingIsAStrictTotalOrder := by
  refine ⟨fun le u v w => ⟨?_, ?_, ?_⟩, fun v w => isBefore_iff false v w, fun v w => isBefore_iff true v w,
    fun v k hk => extractLsb'_bswap32 v hk⟩
  · exact (isBefore_eq_false_iff le v v).mpr le_rfl
  · simp only [isBefore_iff]
    exact Nat.lt_trans
  · rw [ne_eq, ← orderKey_toNat_eq_iff le]
    simp only [isBefore_iff, isBefore_eq_false_iff]
    omega

/-- Settles O39, from the mask test in unbounded naturals. -/
theorem maskTestComputesTheThreeTests : Obligations.MaskTestComputesTheThreeTests := by
  intro d a s
  refine ⟨decodeOfEncodeIsTheCommand (.nismask d a) rfl, _, exec_nismask d a s, fun h => ?_, fun h => ?_, rfl,
    onlyX_setX_complete ..⟩
  · rw [State.getX_setX_complete, (isValidMask_iff _).mpr h, boolX_true]
  · rw [State.getX_setX_complete, boolX_eq_zero_iff, ← Bool.not_eq_true, isValidMask_iff]
    exact h

/-- Settles O40: the third test leaves the 33 netmasks, and the first two refuse three of them. -/
theorem validMasksAreTheThirtyPrefixes : Obligations.ValidMasksAreTheThirtyPrefixes := by
  refine ⟨complementTest_iff, isValidMask_iff_netmask, fun j k _ hj _ hk => netmask_injective (by omega) (by omega),
    fun d a s => ⟨_, exec_nismask d a s, rfl, ?_, ?_⟩⟩
  · rw [State.getX_setX_complete, boolX_eq_one_iff, isValidMask_iff_netmask]
  · rw [State.getX_setX_complete, boolX_eq_zero_iff, ← Bool.not_eq_true, isValidMask_iff_netmask]

/-- Settles O28: each copies a whole register, so that the two conversions undo each other. -/
theorem networkCopiesAndConversions : Obligations.NetworkCopiesAndConversions := by
  intro d a s
  refine ⟨⟨decodeOfEncodeIsTheCommand (.nmov d a) rfl, _, exec_nmov d a s, State.getN_setN_complete .., rfl,
      onlyN_setN_complete ..⟩,
    ⟨decodeOfEncodeIsTheCommand (.nfromx d a) rfl, _, exec_nfromx d a s, State.getN_setN_complete .., rfl,
      onlyN_setN_complete .., fun e => ⟨_, exec_ntox e d _, ?_⟩⟩,
    ⟨decodeOfEncodeIsTheCommand (.ntox d a) rfl, _, exec_ntox d a s, State.getX_setX_complete .., rfl,
      onlyX_setX_complete ..⟩⟩
  rw [State.getX_setX_complete, State.getN_setN_complete]

/-- Settles O31, by what each operation does to one bit. -/
theorem networkBitwiseOperations : Obligations.NetworkBitwiseOperations := by
  intro d a b s
  refine ⟨⟨decodeOfEncodeIsTheCommand (.nnot d a) rfl, _, exec_nnot d a s, fun k hk => ?_, rfl,
      onlyN_setN_complete ..⟩,
    ⟨decodeOfEncodeIsTheCommand (.nand d a b) rfl, _, exec_nand d a b s, fun k => ?_, rfl, onlyN_setN_complete ..⟩,
    ⟨decodeOfEncodeIsTheCommand (.nor d a b) rfl, _, exec_nor d a b s, fun k => ?_, rfl, onlyN_setN_complete ..⟩,
    ⟨decodeOfEncodeIsTheCommand (.nxor d a b) rfl, _, exec_nxor d a b s, fun k => ?_, rfl, onlyN_setN_complete ..⟩⟩
  · rw [State.getN_setN_complete, BitVec.getLsbD_not, decide_eq_true hk, Bool.true_and]
  · rw [State.getN_setN_complete, BitVec.getLsbD_and]
  · rw [State.getN_setN_complete, BitVec.getLsbD_or]
  · rw [State.getN_setN_complete, BitVec.getLsbD_xor]

/-- Settles O36: the key is injective under either value of `RAW_LE`. -/
theorem networkEqualityTest : Obligations.NetworkEqualityTest := by
  intro d a b s
  refine ⟨decodeOfEncodeIsTheCommand (.neq d a b) rfl, ⟨_, exec_neq d a b s, fun h => ?_, fun h => ?_, rfl,
    onlyX_setX_complete ..⟩, fun le => ⟨orderKey_inj, congrArg (orderKey le)⟩⟩
  · rw [State.getX_setX_complete, beq_iff_eq.mpr h, boolX_true]
  · rw [State.getX_setX_complete, beq_eq_false_iff_ne.mpr h, boolX_false]

/-- Settles O37, for whatever value `RAW_LE` has. -/
theorem networkOrderingTest : Obligations.NetworkOrderingTest := by
  intro d a b s
  refine ⟨decodeOfEncodeIsTheCommand (.nlt d a b) rfl, _, exec_nlt d a b s, ?_⟩
  rw [State.getX_setX_complete, boolX_eq_one_iff, boolX_eq_zero_iff, isBefore_iff,
    isBefore_eq_false_iff, Nat.not_lt]
  exact ⟨id, id, fun h => by rw [h], rfl, onlyX_setX_complete ..⟩

/-- Settles O41, by what the two formulas do to one bit. -/
theorem derivedAddressesForAnyMask : Obligations.DerivedAddressesForAnyMask := by
  intro d a b s
  refine ⟨⟨decodeOfEncodeIsTheCommand (.nnet d a b) rfl, _, exec_nnet d a b s, fun k _ => ?_, rfl,
      onlyN_setN_complete ..⟩,
    ⟨decodeOfEncodeIsTheCommand (.nbcast d a b) rfl, _, exec_nbcast d a b s, fun k hk => ?_, rfl,
      onlyN_setN_complete ..⟩⟩
  · rw [State.getN_setN_complete, BitVec.getLsbD_and]
  · rw [State.getN_setN_complete, BitVec.getLsbD_or, BitVec.getLsbD_not, decide_eq_true hk,
      Bool.true_and]

end Sys2Proof.Machine
end

section
/-! SUPPORT. The words of `HLDL` outside the bound of R58. -/

namespace Sys2Proof

/-- The bound of `HLDL` is on offset plus count: past it the word is illegal, however few elements the list has. -/
theorem decode_hldl_of_gt (r : HReg) {off : BitVec 5} {cnt : BitVec 4} (h : 28 < off.toNat + cnt.toNat) :
    decode (wordM 0x32 (nibble r) cnt off) = .error .offsetBound := by
  have hr : hSlot (nibble r) = .ok r := (hSlot_ok_iff _ r).mpr rfl
  have hbound : decide (off.toNat + cnt.toNat ≤ 28) = false := decide_eq_false (by omega)
  have hformat : formatOf (cmdField (wordM 0x32 (nibble r) cnt off)) = some (.ml .hldl) := by
    rw [cmdField_wordM]
    rfl
  rw [decode_of_formatOf hformat]
  simp only [Format.decode, formatML, rdField_wordM, midField_wordM, cntField_wordM, gapField_wordM, offField_wordM, hr,
    hbound]
  rfl

end Sys2Proof
end

section
/-! SUPPORT. How a HardwareAddress command ends (41_hardware_address.md): what it writes, and its frame; then the six
bytes of an address as what makes two of them equal. -/

namespace Sys2Proof.Machine

open Sys2Proof.Safety

/-! ### Commands that write one hardware register -/

theorem State.getH_setH_complete (s : State) (d : HReg) (v : HwAddr) (c : Code) :
    ((s.setH d v).complete c).getH d = v :=
  s.getH_setH_self d v

theorem onlyH_setH_complete (s : State) (d : HReg) (v : HwAddr) (c : Code) : OnlyH d s ((s.setH d v).complete c) :=
  ⟨fun _ hr => State.getH_setH_of_ne s _ _ v hr, fun _ => rfl, fun _ => rfl, rfl, fun _ => rfl⟩

theorem exec_hmov (d a : HReg) (s : State) :
    exec (.hmov d a) s = .next ((s.setH d (s.getH a)).complete .ok) := rfl

theorem exec_hsetbc (d : HReg) (s : State) :
    exec (.hsetbc d) s = .next ((s.setH d 0xFFFFFFFFFFFF).complete .ok) := rfl

/-! ### Loads and the store inside the buffer -/

/-- The state after the six bytes at `off` are loaded into `H[r]`: how `HLD` ends, and `HLDL` on a long enough list. -/
def State.loadH (s : State) (r : HReg) (off : Nat) : State :=
  (s.setH r (frombe 48 (s.memRead off 6))).complete .ok

theorem State.getH_loadH (s : State) (r : HReg) (off : Nat) :
    (s.loadH r off).getH r = frombe 48 (s.memRead off 6) :=
  s.getH_setH_complete r _ .ok

theorem onlyH_loadH (s : State) (r : HReg) (off : Nat) : OnlyH r s (s.loadH r off) :=
  onlyH_setH_complete s r _ .ok

/-- Byte `k` of the loaded address, counted from bits 47:40, is the byte at `off + k`. -/
theorem State.extractLsb'_getH_loadH (s : State) (r : HReg) (off : Nat) {k : Nat} (hk : k < 6) :
    ((s.loadH r off).getH r).extractLsb' (40 - 8 * k) 8 = s.byte (off + k) := by
  rw [show 40 - 8 * k = 8 * (6 - 1 - k) by omega, State.getH_loadH, State.extractLsb'_frombe_memRead s (by decide) hk]

theorem exec_hld (r : HReg) {off : BitVec 5} (h : off.toNat ≤ 22) (s : State) :
    exec (.hld r off) s = .next (s.loadH r off.toNat) :=
  inBuffer_of_le _ (by omega)

theorem exec_hldl_of_le (r : HReg) {off : BitVec 5} {cnt : BitVec 4} (h : off.toNat + cnt.toNat ≤ 28)
    (hcnt : 6 ≤ cnt.toNat) (s : State) : exec (.hldl r off cnt) s = .next (s.loadH r off.toNat) :=
  (inBuffer_of_le _ h).trans (if_neg (by omega))

theorem exec_hldl_of_lt (r : HReg) {off : BitVec 5} {cnt : BitVec 4} (h : off.toNat + cnt.toNat ≤ 28)
    (hcnt : cnt.toNat < 6) (s : State) : exec (.hldl r off cnt) s = .next (s.complete .shortList) :=
  (inBuffer_of_le _ h).trans (if_pos hcnt)

theorem exec_hst (r : HReg) {off : BitVec 5} (h : off.toNat ≤ 22) (s : State) :
    exec (.hst r off) s = .next ((s.memWrite off.toNat (be (s.getH r) 6)).complete .ok) :=
  inBuffer_of_le _ (by omega)

/-! ### Tests -/

theorem exec_heq (d : XReg) (a b : HReg) (s : State) :
    exec (.heq d a b) s = .next ((s.setX d (boolX (s.getH a == s.getH b))).complete .ok) := rfl

theorem exec_hne (d : XReg) (a b : HReg) (s : State) :
    exec (.hne d a b) s = .next ((s.setX d (boolX (s.getH a != s.getH b))).complete .ok) := rfl

theorem exec_hisnull (d : XReg) (a : HReg) (s : State) :
    exec (.hisnull d a) s = .next ((s.setX d (boolX (s.getH a == 0))).complete .ok) := rfl

/-- Values of at most `n` bytes are equal when their bytes are, counted from the least significant. -/
theorem eq_of_forall_byte_eq {w n : Nat} (hw : w ≤ 8 * n) {u v : BitVec w}
    (h : ∀ k, k < n → u.extractLsb' (8 * k) 8 = v.extractLsb' (8 * k) 8) : u = v := by
  refine be_inj u v n hw (List.ext_getElem? fun j => ?_)
  rw [getElem?_be, getElem?_be]
  by_cases hj : j < n
  · rw [if_pos hj, if_pos hj, h (n - 1 - j) (by omega)]
  · rw [if_neg hj, if_neg hj]

theorem ne_of_exists_byte_ne {w n : Nat} {u v : BitVec w}
    (h : ∃ k, k < n ∧ u.extractLsb' (8 * k) 8 ≠ v.extractLsb' (8 * k) 8) : u ≠ v := by
  rintro rfl
  obtain ⟨k, -, hne⟩ := h
  exact hne rfl

end Sys2Proof.Machine
end

section
/-! The statements of 41_hardware_address.md. -/

namespace Sys2Proof.Machine

open Sys2Proof.Safety

/-- Settles O43: the loaded address is joined from the six bytes, the first in bits 47:40. -/
theorem hardwareLoadTakesSixBytes : Obligations.HardwareLoadTakesSixBytes := by
  intro r off s
  exact ⟨fun h => ⟨decodeOfEncodeIsTheCommand (.hld r off) (decide_eq_true h), _, exec_hld r h s,
    fun _ hk => s.extractLsb'_getH_loadH r off.toNat hk, rfl, onlyH_loadH ..⟩,
    fun h => decode_wordM_of_gt (c := 0x31) (sr := .h) rfl r h⟩

/-- Settles O44: the bound is found when the word is decoded, the count looked at only when the command is carried
out. -/
theorem hardwareListLoadNeedsSixElements : Obligations.HardwareListLoadNeedsSixElements := by
  intro r off cnt s
  refine ⟨fun h => ⟨decodeOfEncodeIsTheCommand (.hldl r off cnt) (decide_eq_true h), fun hcnt => ?_, fun hcnt => ?_⟩,
    fun h => ?_⟩
  · exact ⟨_, exec_hldl_of_le r h hcnt s, fun _ hk => s.extractLsb'_getH_loadH r off.toNat hk, rfl, onlyH_loadH ..⟩
  · exact ⟨_, exec_hldl_of_lt r h hcnt s, rfl, onlyST_complete s .shortList⟩
  · have hdecode := decode_hldl_of_gt r h
    exact ⟨hdecode, _, issue_of_illegal hdecode s, rfl, onlyST_complete s .illegalCmd⟩

/-- Settles O45: the bytes stored are those of the address, so a load of them gives it back. -/
theorem hardwareStoreIsBigEndian : Obligations.HardwareStoreIsBigEndian := by
  intro r off s
  refine ⟨fun h => ⟨decodeOfEncodeIsTheCommand (.hst r off) (decide_eq_true h), _, exec_hst r h s, fun k hk => ?_, rfl,
    ?_, fun q => ⟨_, exec_hld q h _, ?_⟩⟩, fun h => decode_wordM_of_gt (c := 0x33) (sr := .h) rfl r h⟩
  · rw [show 40 - 8 * k = 8 * (6 - 1 - k) by omega, State.byte_complete, State.byte_memWrite_be s _ hk]
  · exact length_be (s.getH r) 6 ▸ onlyWB_memWrite_complete s off.toNat (be (s.getH r) 6) .ok
  · rw [State.getH_loadH]
    exact s.frombe_memRead_memWrite_be off.toNat (s.getH r) rfl

/-- Settles O42: the first copies a whole register, the second writes a constant. -/
theorem hardwareCopyAndBroadcast : Obligations.HardwareCopyAndBroadcast := by
  intro d a s
  exact ⟨⟨decodeOfEncodeIsTheCommand (.hmov d a) rfl, _, exec_hmov d a s, State.getH_setH_complete .., rfl,
      onlyH_setH_complete ..⟩,
    ⟨decodeOfEncodeIsTheCommand (.hsetbc d) rfl, _, exec_hsetbc d s, State.getH_setH_complete .., rfl,
      onlyH_setH_complete ..⟩⟩

/-- Settles O46: each test compares whole addresses, which are equal exactly when their six bytes are; the null address
is the one whose bytes are those of 0. -/
theorem hardwareTests : Obligations.HardwareTests := by
  intro d a b s
  have hzero : ∀ k, (0 : HwAddr).extractLsb' (8 * k) 8 = 0 := fun _ => BitVec.extractLsb'_zero
  refine ⟨⟨decodeOfEncodeIsTheCommand (.heq d a b) rfl, _, exec_heq d a b s, fun h => ?_, fun h => ?_, rfl,
      onlyX_setX_complete ..⟩,
    ⟨decodeOfEncodeIsTheCommand (.hne d a b) rfl, _, exec_hne d a b s, fun h => ?_, fun h => ?_, rfl,
      onlyX_setX_complete ..⟩,
    ⟨decodeOfEncodeIsTheCommand (.hisnull d a) rfl, _, exec_hisnull d a s, fun h => ?_, fun h => ?_, rfl,
      onlyX_setX_complete ..⟩⟩
  · rw [State.getX_setX_complete, beq_iff_eq.mpr (eq_of_forall_byte_eq (by decide) h), boolX_true]
  · rw [State.getX_setX_complete, beq_eq_false_iff_ne.mpr (ne_of_exists_byte_ne h), boolX_false]
  · rw [State.getX_setX_complete, bne_eq_false_iff_eq.mpr (eq_of_forall_byte_eq (by decide) h), boolX_false]
  · rw [State.getX_setX_complete, bne_iff_ne.mpr (ne_of_exists_byte_ne h), boolX_true]
  · have hnull : s.getH a = 0 := eq_of_forall_byte_eq (by decide) fun k hk => (h k hk).trans (hzero k).symm
    rw [State.getX_setX_complete, beq_iff_eq.mpr hnull, boolX_true]
  · obtain ⟨k, hk, hne⟩ := h
    have hnull : s.getH a ≠ 0 := ne_of_exists_byte_ne ⟨k, hk, fun he => hne (he.trans (hzero k))⟩
    rw [State.getX_setX_complete, beq_eq_false_iff_ne.mpr hnull, boolX_false]

end Sys2Proof.Machine
end

section
/-! SUPPORT. `encode(F)` and `decode(b)` are inverse (42_arp_frame.md R132): the slices `decode` takes are the parts
`encode` puts together. -/

namespace Sys2Proof.Machine

/-! ### Slices -/

theorem getElem?_slice (b : List Byte) (o : Nat) {n k : Nat} (hk : k < n) : (slice b o n)[k]? = b[o + k]? := by
  rw [slice, List.getElem?_take_of_lt hk, List.getElem?_drop]

theorem length_slice {b : List Byte} {o n : Nat} (h : o + n ≤ b.length) : (slice b o n).length = n := by
  rw [slice, List.length_take, List.length_drop]
  omega

theorem slice_append_slice (b : List Byte) (o m n : Nat) : slice b o m ++ slice b (o + m) n = slice b o (m + n) := by
  simp only [slice, List.take_add, List.drop_drop]

theorem slice_zero_length (b : List Byte) : slice b 0 b.length = b :=
  List.take_length

/-- The bytes of the value joined from a slice are the slice. -/
theorem be_frombe_slice {w n : Nat} {b : List Byte} {o : Nat} (h : o + n ≤ b.length) (hw : 8 * n ≤ w) :
    be (frombe w (slice b o n)) n = slice b o n := by
  have hlen := length_slice h
  have hjoin := be_frombe w (slice b o n) (hlen.symm ▸ hw)
  rwa [hlen] at hjoin

/-! ### The two directions -/

/-- The bytes of each field of `f` stand in `b` at the offset R131 gives for the field. -/
structure FieldsAt (b : List Byte) (f : Frame) : Prop where
  htype : slice b 0 2 = be f.htype 2
  ptype : slice b 2 2 = be f.ptype 2
  hlen : slice b 4 1 = be f.hlen 1
  plen : slice b 5 1 = be f.plen 1
  oper : slice b 6 2 = be f.oper 2
  sha : slice b 8 6 = be f.sha 6
  spa : slice b 14 4 = be f.spa 4
  tha : slice b 18 6 = be f.tha 6
  tpa : slice b 24 4 = be f.tpa 4

theorem fieldsAt_encodeFrame (f : Frame) : FieldsAt (encodeFrame f) f :=
  ⟨rfl, rfl, rfl, rfl, rfl, rfl, rfl, rfl, rfl⟩

theorem decodeFrame_encodeFrame (f : Frame) : decodeFrame (encodeFrame f) = f := by
  obtain ⟨hhtype, hptype, hhlen, hplen, hoper, hsha, hspa, htha, htpa⟩ := fieldsAt_encodeFrame f
  rw [decodeFrame, hhtype, hptype, hhlen, hplen, hoper, hsha, hspa, htha, htpa, frombe_be f.htype 2 rfl,
    frombe_be f.ptype 2 rfl, frombe_be f.hlen 1 rfl, frombe_be f.plen 1 rfl, frombe_be f.oper 2 rfl,
    frombe_be f.sha 6 rfl, frombe_be f.spa 4 rfl, frombe_be f.tha 6 rfl, frombe_be f.tpa 4 rfl]

/-- Each part of the encoding is a slice of `b`, and the nine slices follow one another from offset 0 to 28. -/
theorem encodeFrame_decodeFrame {b : List Byte} (h : b.length = 28) : encodeFrame (decodeFrame b) = b := by
  have hpart {w o n : Nat} (ho : o + n ≤ 28) (hw : 8 * n ≤ w) : be (frombe w (slice b o n)) n = slice b o n :=
    be_frombe_slice (ho.trans h.ge) hw
  calc encodeFrame (decodeFrame b)
      = slice b 0 2 ++ slice b 2 2 ++ slice b 4 1 ++ slice b 5 1 ++ slice b 6 2 ++ slice b 8 6 ++ slice b 14 4 ++
          slice b 18 6 ++ slice b 24 4 := by
        simp only [encodeFrame, decodeFrame, hpart, Nat.reduceLeDiff, Nat.reduceAdd, Nat.reduceMul]
    _ = slice b 0 28 := by
        rw [slice_append_slice b 0 2 2, slice_append_slice b 0 4 1, slice_append_slice b 0 5 1,
          slice_append_slice b 0 6 2, slice_append_slice b 0 8 6, slice_append_slice b 0 14 4,
          slice_append_slice b 0 18 6, slice_append_slice b 0 24 4]
    _ = b := h ▸ slice_zero_length b

end Sys2Proof.Machine
end

section
/-! SUPPORT. The frame in the wire buffer: which byte of which field each offset holds when `WB` is an encoding
(42_arp_frame.md R130, R131), and the two commands that go between F and `WB` (R134, R135). -/

namespace Sys2Proof.Machine

open Sys2Proof.Safety

/-! ### The buffer as an encoding -/

/-- The `n` bytes of `WB` at `o` are the low `n` bytes of `v`, the most significant at `o`. -/
def State.HoldsAt (s : State) (o n : Nat) {w : Nat} (v : BitVec w) : Prop :=
  ∀ k, k < n → s.byte (o + k) = v.extractLsb' (8 * (n - 1) - 8 * k) 8

theorem State.HoldsAt.byte_eq {s : State} {o : Nat} {v : Byte} (h : s.HoldsAt o 1 v) : s.byte o = v :=
  (h 0 Nat.one_pos).trans BitVec.extractLsb'_eq_self

theorem State.holdsAt_of_slice {s : State} {o n w : Nat} {v : BitVec w} (ho : o + n ≤ 28)
    (h : slice (s.memRead 0 28) o n = be v n) : s.HoldsAt o n v := by
  intro k hk
  have hread : (s.memRead 0 28)[o + k]? = some (s.byte (o + k)) := by
    rw [s.getElem?_memRead (by omega), Nat.zero_add]
  have hbyte := getElem?_be v n k
  rw [← h, getElem?_slice _ _ hk, hread, if_pos hk] at hbyte
  rw [Option.some.inj hbyte, ← Nat.mul_sub]

/-- `WB` is `encode(f)`, read field by field. -/
structure State.HoldsFrame (s : State) (f : Frame) : Prop where
  htype : s.HoldsAt 0 2 f.htype
  ptype : s.HoldsAt 2 2 f.ptype
  hlen : s.HoldsAt 4 1 f.hlen
  plen : s.HoldsAt 5 1 f.plen
  oper : s.HoldsAt 6 2 f.oper
  sha : s.HoldsAt 8 6 f.sha
  spa : s.HoldsAt 14 4 f.spa
  tha : s.HoldsAt 18 6 f.tha
  tpa : s.HoldsAt 24 4 f.tpa

theorem State.holdsFrame_of_memRead {s : State} {f : Frame} (h : s.memRead 0 28 = encodeFrame f) : s.HoldsFrame f := by
  obtain ⟨hhtype, hptype, hhlen, hplen, hoper, hsha, hspa, htha, htpa⟩ := h ▸ fieldsAt_encodeFrame f
  exact ⟨holdsAt_of_slice (by decide) hhtype, holdsAt_of_slice (by decide) hptype, holdsAt_of_slice (by decide) hhlen,
    holdsAt_of_slice (by decide) hplen, holdsAt_of_slice (by decide) hoper, holdsAt_of_slice (by decide) hsha,
    holdsAt_of_slice (by decide) hspa, holdsAt_of_slice (by decide) htha, holdsAt_of_slice (by decide) htpa⟩

theorem State.encodeFrame_decodeFrame_memRead (s : State) :
    encodeFrame (decodeFrame (s.memRead 0 28)) = s.memRead 0 28 :=
  encodeFrame_decodeFrame (s.length_memRead 0 28)

/-- Whatever `WB` holds, it is the encoding of the frame decoded from it. -/
theorem State.holdsFrame_decodeFrame (s : State) : s.HoldsFrame (decodeFrame (s.memRead 0 28)) :=
  holdsFrame_of_memRead s.encodeFrame_decodeFrame_memRead.symm

/-! ### `FENC` and `FDEC` -/

/-- The state after `FENC`. -/
def State.encoded (s : State) : State := (s.memWrite 0 (encodeFrame s.f)).complete .ok

/-- The state after `FDEC`. -/
def State.decoded (s : State) : State := (s.setF (decodeFrame (s.memRead 0 28))).complete .ok

theorem exec_fenc (s : State) : exec .fenc s = .next s.encoded := rfl

theorem exec_fdec (s : State) : exec .fdec s = .next s.decoded := rfl

theorem State.memRead_encoded (s : State) : s.encoded.memRead 0 28 = encodeFrame s.f := by
  have hread := readBytes_writeBytes s.wb 0 (encodeFrame s.f)
  rwa [length_encodeFrame] at hread

theorem onlyWB_encoded (s : State) : OnlyWB 0 28 s s.encoded :=
  length_encodeFrame s.f ▸ onlyWB_memWrite_complete s 0 (encodeFrame s.f) .ok

/-- Writing back the bytes just read changes none of them. -/
theorem State.byte_memWrite_memRead (s : State) (off n o : Nat) :
    (s.memWrite off (s.memRead off n)).byte o = s.byte o := by
  by_cases ho : off ≤ o ∧ o < off + n
  · obtain ⟨k, rfl⟩ := Nat.exists_eq_add_of_le ho.1
    have hk : k < n := by omega
    rw [State.byte, State.memWrite_wb, readByte_writeBytes, s.length_memRead, if_pos ho, Nat.add_sub_cancel_left,
      List.getD, s.getElem?_memRead hk, Option.getD_some]
  · exact s.byte_memWrite_of_outside (by rwa [s.length_memRead])

/-- `FENC` changes no byte when `WB` is the encoding of F already. -/
theorem keepsWB_encoded {s : State} (h : encodeFrame s.f = s.memRead 0 28) : KeepsWB s s.encoded := by
  intro o
  rw [State.encoded, h, State.byte_complete, State.byte_memWrite_memRead]

theorem onlyF_setF_complete (s : State) (f : Frame) (c : Code) : OnlyF s ((s.setF f).complete c) :=
  ⟨fun _ => rfl, fun _ => rfl, fun _ => rfl, fun _ => rfl⟩

end Sys2Proof.Machine
end

section
/-! SUPPORT. `FINIT`, the setters and the getters (42_arp_frame.md R133, R136 to R155): the one write of each, and what
follows from a single write of F or of one register. -/

namespace Sys2Proof.Machine

open Sys2Proof.Safety

/-! ### The write of each command -/

theorem exec_finit (s : State) : exec .finit s = finish (s.setF defaultFrame) := rfl

theorem exec_fshtype (a : XReg) (s : State) :
    exec (.fshtype a) s = finish (s.setF { s.f with htype := lowBits 16 (s.getX a) }) := rfl

theorem exec_fsptype (a : XReg) (s : State) :
    exec (.fsptype a) s = finish (s.setF { s.f with ptype := lowBits 16 (s.getX a) }) := rfl

theorem exec_fshlen (a : XReg) (s : State) :
    exec (.fshlen a) s = finish (s.setF { s.f with hlen := lowBits 8 (s.getX a) }) := rfl

theorem exec_fsplen (a : XReg) (s : State) :
    exec (.fsplen a) s = finish (s.setF { s.f with plen := lowBits 8 (s.getX a) }) := rfl

theorem exec_fsoper (a : XReg) (s : State) :
    exec (.fsoper a) s = finish (s.setF { s.f with oper := lowBits 16 (s.getX a) }) := rfl

theorem exec_fssha (a : HReg) (s : State) :
    exec (.fssha a) s = finish (s.setF { s.f with sha := s.getH a }) := rfl

theorem exec_fsspa (a : NReg) (s : State) :
    exec (.fsspa a) s = finish (s.setF { s.f with spa := s.getN a }) := rfl

theorem exec_fstha (a : HReg) (s : State) :
    exec (.fstha a) s = finish (s.setF { s.f with tha := s.getH a }) := rfl

theorem exec_fstpa (a : NReg) (s : State) :
    exec (.fstpa a) s = finish (s.setF { s.f with tpa := s.getN a }) := rfl

theorem exec_fghtype (d : XReg) (s : State) : exec (.fghtype d) s = finish (s.setX d (zext32 s.f.htype)) := rfl

theorem exec_fgptype (d : XReg) (s : State) : exec (.fgptype d) s = finish (s.setX d (zext32 s.f.ptype)) := rfl

theorem exec_fghlen (d : XReg) (s : State) : exec (.fghlen d) s = finish (s.setX d (zext32 s.f.hlen)) := rfl

theorem exec_fgplen (d : XReg) (s : State) : exec (.fgplen d) s = finish (s.setX d (zext32 s.f.plen)) := rfl

theorem exec_fgoper (d : XReg) (s : State) : exec (.fgoper d) s = finish (s.setX d (zext32 s.f.oper)) := rfl

theorem exec_fgsha (d : HReg) (s : State) : exec (.fgsha d) s = finish (s.setH d s.f.sha) := rfl

theorem exec_fgspa (d : NReg) (s : State) : exec (.fgspa d) s = finish (s.setN d s.f.spa) := rfl

theorem exec_fgtha (d : HReg) (s : State) : exec (.fgtha d) s = finish (s.setH d s.f.tha) := rfl

theorem exec_fgtpa (d : NReg) (s : State) : exec (.fgtpa d) s = finish (s.setN d s.f.tpa) := rfl

theorem lowBits_eq_extractLsb' {w : Nat} (h : w ≤ 32) (v : Scalar) : lowBits w v = v.extractLsb' 0 w :=
  BitVec.setWidth_eq_extractLsb' h

/-! ### A command with a single write: its word decodes to it, the value it gives, and its frame -/

section
variable (i : Instr) {s : State}

theorem effect_of_setF {g : Frame} (hwf : i.wf = true) (h : exec i s = finish (s.setF g)) :
    decode (encode i) = .ok i ∧ ∃ t, exec i s = .next t ∧ t.f = g ∧ t.st = .ok ∧ OnlyF s t :=
  ⟨decodeOfEncodeIsTheCommand i hwf, _, h, rfl, rfl, onlyF_setF_complete ..⟩

theorem effect_of_setX {d : XReg} {v : Scalar} (hwf : i.wf = true) (h : exec i s = finish (s.setX d v)) :
    decode (encode i) = .ok i ∧ ∃ t, exec i s = .next t ∧ t.getX d = v ∧ t.st = .ok ∧ OnlyX d s t :=
  ⟨decodeOfEncodeIsTheCommand i hwf, _, h, State.getX_setX_complete .., rfl, onlyX_setX_complete ..⟩

theorem effect_of_setN {d : NReg} {v : NetAddr} (hwf : i.wf = true) (h : exec i s = finish (s.setN d v)) :
    decode (encode i) = .ok i ∧ ∃ t, exec i s = .next t ∧ t.getN d = v ∧ t.st = .ok ∧ OnlyN d s t :=
  ⟨decodeOfEncodeIsTheCommand i hwf, _, h, State.getN_setN_complete .., rfl, onlyN_setN_complete ..⟩

theorem effect_of_setH {d : HReg} {v : HwAddr} (hwf : i.wf = true) (h : exec i s = finish (s.setH d v)) :
    decode (encode i) = .ok i ∧ ∃ t, exec i s = .next t ∧ t.getH d = v ∧ t.st = .ok ∧ OnlyH d s t :=
  ⟨decodeOfEncodeIsTheCommand i hwf, _, h, State.getH_setH_complete .., rfl, onlyH_setH_complete ..⟩

end

end Sys2Proof.Machine
end

section
/-! The statements of 42_arp_frame.md. -/

namespace Sys2Proof.Machine

open Sys2Proof.Safety

/-- Settles O50: `decode` takes the slices that `encode` puts together. -/
theorem frameRoundTripBothWays : Obligations.FrameRoundTripBothWays :=
  ⟨fun f => ⟨length_encodeFrame f, decodeFrame_encodeFrame f⟩, fun _ h => encodeFrame_decodeFrame h⟩

/-- Settles O48: after `FENC` the 28 bytes are `encode(F)`, so a second `FENC` writes what is there. -/
theorem frameEncodeLaysOutEveryByte : Obligations.FrameEncodeLaysOutEveryByte := by
  intro s
  have hread : s.encoded.memRead 0 28 = encodeFrame s.f := s.memRead_encoded
  have hold : s.encoded.HoldsFrame s.f := State.holdsFrame_of_memRead hread
  exact ⟨decodeOfEncodeIsTheCommand .fenc rfl, s.encoded, exec_fenc s,
    hold.htype 0 Nat.two_pos, hold.htype 1 Nat.one_lt_two, hold.ptype 0 Nat.two_pos, hold.ptype 1 Nat.one_lt_two,
    hold.hlen.byte_eq, hold.plen.byte_eq, hold.oper 0 Nat.two_pos, hold.oper 1 Nat.one_lt_two,
    hold.sha, hold.spa, hold.tha, hold.tpa, length_encodeFrame s.f, hread, rfl, onlyWB_encoded s,
    s.encoded.encoded, exec_fenc s.encoded, keepsWB_encoded hread.symm⟩

/-- Settles O49: whatever `WB` holds is the encoding of the frame decoded from it, so its bytes are those of the
fields. -/
theorem frameDecodeReadsEveryByte : Obligations.FrameDecodeReadsEveryByte := by
  intro s
  have hold : s.HoldsFrame s.decoded.f := s.holdsFrame_decodeFrame
  exact ⟨decodeOfEncodeIsTheCommand .fdec rfl, s.decoded, exec_fdec s,
    hold.htype 0 Nat.two_pos, hold.htype 1 Nat.one_lt_two, hold.ptype 0 Nat.two_pos, hold.ptype 1 Nat.one_lt_two,
    hold.hlen.byte_eq, hold.plen.byte_eq, hold.oper 0 Nat.two_pos, hold.oper 1 Nat.one_lt_two,
    hold.sha, hold.spa, hold.tha, hold.tpa, rfl, rfl, onlyF_setF_complete ..⟩

/-- Settles O51, by the two round trips of R132. -/
theorem frameCommandsUndoEachOther : Obligations.FrameCommandsUndoEachOther := by
  intro s
  refine ⟨⟨s.encoded, s.encoded.decoded, exec_fenc s, exec_fdec _, rfl, rfl, ?_⟩,
    ⟨s.decoded, s.decoded.encoded, exec_fdec s, exec_fenc _, rfl, rfl, ?_⟩⟩
  · calc s.encoded.decoded.f
        = decodeFrame (s.encoded.memRead 0 28) := rfl
      _ = s.f := by rw [s.memRead_encoded, decodeFrame_encodeFrame]
  · have henc : encodeFrame s.decoded.f = s.decoded.memRead 0 28 := s.encodeFrame_decodeFrame_memRead
    exact fun o => keepsWB_encoded henc o

/-- Settles O47: F after reset is the default frame, which `FINIT` writes. -/
theorem frameInitialisation : Obligations.FrameInitialisation := by
  intro s
  exact ⟨decodeOfEncodeIsTheCommand .finit rfl, _, exec_finit s, rfl, rfl, rfl, onlyF_setF_complete ..⟩

/-- Settles O52: the low bits of `X[a]` are those that a truncation to the field's width keeps. -/
theorem integerSettersTruncate : Obligations.IntegerSettersTruncate := by
  intro a s
  have hlow16 : (s.getX a).extractLsb' 0 16 = lowBits 16 (s.getX a) := (lowBits_eq_extractLsb' (by decide) _).symm
  have hlow8 : (s.getX a).extractLsb' 0 8 = lowBits 8 (s.getX a) := (lowBits_eq_extractLsb' (by decide) _).symm
  rw [hlow16, hlow8]
  exact ⟨effect_of_setF (.fshtype a) rfl (exec_fshtype a s), effect_of_setF (.fsptype a) rfl (exec_fsptype a s),
    effect_of_setF (.fshlen a) rfl (exec_fshlen a s), effect_of_setF (.fsplen a) rfl (exec_fsplen a s),
    effect_of_setF (.fsoper a) rfl (exec_fsoper a s)⟩

/-- Settles O53: a single write of F, with a register's value in one field. -/
theorem addressSettersCopyAllBits : Obligations.AddressSettersCopyAllBits := by
  intro a b s
  exact ⟨effect_of_setF (.fssha a) rfl (exec_fssha a s), effect_of_setF (.fsspa b) rfl (exec_fsspa b s),
    effect_of_setF (.fstha a) rfl (exec_fstha a s), effect_of_setF (.fstpa b) rfl (exec_fstpa b s)⟩

/-- Settles O54: a single write of `X[d]`, with the zero-extended field. -/
theorem integerGettersZeroExtend : Obligations.IntegerGettersZeroExtend := by
  intro d s
  exact ⟨effect_of_setX (.fghtype d) rfl (exec_fghtype d s), effect_of_setX (.fgptype d) rfl (exec_fgptype d s),
    effect_of_setX (.fghlen d) rfl (exec_fghlen d s), effect_of_setX (.fgplen d) rfl (exec_fgplen d s),
    effect_of_setX (.fgoper d) rfl (exec_fgoper d s)⟩

/-- Settles O55: a single write of `H[d]` or `N[e]`, with the field. -/
theorem addressGettersCopyAllBits : Obligations.AddressGettersCopyAllBits := by
  intro d e s
  exact ⟨effect_of_setH (.fgsha d) rfl (exec_fgsha d s), effect_of_setN (.fgspa e) rfl (exec_fgspa e s),
    effect_of_setH (.fgtha d) rfl (exec_fgtha d s), effect_of_setN (.fgtpa e) rfl (exec_fgtpa e s)⟩

end Sys2Proof.Machine
end

section
/-! SUPPORT. `XMOV` and `STB`, and the two halves of what `XLIH` writes (43_support.md R162, R163, R165). -/

namespace Sys2Proof.Machine

theorem exec_xmov (d a : XReg) (s : State) : exec (.xmov d a) s = .next ((s.setX d (s.getX a)).complete .ok) := rfl

theorem exec_stb (r : XReg) {off : BitVec 5} (h : off.toNat ≤ 27) (s : State) :
    exec (.stb r off) s = .next ((s.memWrite off.toNat (be (lowBits 8 (s.getX r)) 1)).complete .ok) :=
  inBuffer_of_le _ (by omega)

/-- The value `XLIH` writes is the immediate followed by the lower half of the old one. -/
theorem withUpperHalf_eq_append (imm : BitVec 16) (v : Scalar) :
    withUpperHalf imm v = imm ++ v.extractLsb' 0 16 := by
  rw [withUpperHalf, BitVec.append_def, BitVec.shiftLeftZeroExtend_eq, BitVec.setWidth'_eq]

theorem extractLsb'_withUpperHalf_upper (imm : BitVec 16) (v : Scalar) :
    (withUpperHalf imm v).extractLsb' 16 16 = imm := by
  rw [withUpperHalf_eq_append, BitVec.extractLsb'_append_eq_left]

theorem extractLsb'_withUpperHalf_lower (imm : BitVec 16) (v : Scalar) :
    (withUpperHalf imm v).extractLsb' 0 16 = v.extractLsb' 0 16 := by
  rw [withUpperHalf_eq_append, BitVec.extractLsb'_append_eq_right]

end Sys2Proof.Machine
end

section
/-! The statements of 43_support.md. -/

namespace Sys2Proof.Machine

/-- Settles O25: each is a single write of `X[d]`; the one of `XLIH` is the immediate followed by the old lower half. -/
theorem scalarImmediatesAndCopy : Obligations.ScalarImmediatesAndCopy := by
  intro d a imm s
  obtain ⟨hdecode, t, ht, hval, hst, honly⟩ := effect_of_setX (.xlih d imm) rfl (exec_xlih d imm s)
  refine ⟨effect_of_setX (.xli d imm) rfl (exec_xli d imm s), ⟨hdecode, t, ht, ?_, ?_, hst, honly⟩,
    effect_of_setX (.xmov d a) rfl (exec_xmov d a s)⟩
  · rw [hval, extractLsb'_withUpperHalf_upper]
  · rw [hval, extractLsb'_withUpperHalf_lower]

/-- Settles O26: within the bound a single write of `X[r]`, past it a word that does not decode (R58). -/
theorem byteLoadZeroExtends : Obligations.ByteLoadZeroExtends := by
  intro r off s
  exact ⟨fun h => effect_of_setX (.ldb r off) (decide_eq_true h) (exec_ldb r h s),
    fun h => decode_wordM_of_gt (c := 0x04) (sr := .x) rfl r h⟩

/-- Settles O27: the one byte stored is the truncation of `X[r]`, which is its low byte. -/
theorem byteStoreTruncates : Obligations.ByteStoreTruncates := by
  intro r off s
  refine ⟨fun h => ⟨decodeOfEncodeIsTheCommand (.stb r off) (decide_eq_true h), _, exec_stb r h s, ?_, rfl,
    onlyWB_memWrite_complete s off.toNat (be _ 1) .ok⟩, fun h => decode_wordM_of_gt (c := 0x05) (sr := .x) rfl r h⟩
  calc ((s.memWrite off.toNat (be (lowBits 8 (s.getX r)) 1)).complete .ok).byte off.toNat
      = (lowBits 8 (s.getX r)).extractLsb' 0 8 := s.byte_memWrite_be (k := 0) _ Nat.one_pos
    _ = (s.getX r).extractLsb' 0 8 := by rw [BitVec.extractLsb'_eq_self, lowBits_eq_extractLsb' (by decide)]

end Sys2Proof.Machine
end

section
/-! SUPPORT. Text cut at a separator (44_text_reference.md R172, R176): the model's `splitAtChar` and `joinWith` are the
library's `List.splitOn` and `List.intercalate`, so each undoes the other; then a parser and a printer of the parts. -/

namespace Sys2Proof.Machine

theorem splitAtChar_eq_splitOn (sep : Char) (s : List Char) : splitAtChar sep s = s.splitOn sep := by
  induction s with
  | nil => rfl
  | cons c cs ih =>
    obtain ⟨p, ps, hcs⟩ := List.exists_cons_of_ne_nil (List.splitOnP_ne_nil (· == sep) cs)
    rw [List.splitOn] at ih ⊢
    rw [splitAtChar, ih, List.splitOnP_cons_eq_if_modifyHead, hcs]
    simp only [beq_iff_eq, List.modifyHead_cons]

theorem joinWith_eq_intercalate (sep : Char) (ps : List (List Char)) : joinWith sep ps = [sep].intercalate ps := by
  induction ps using joinWith.induct with
  | case1 => rfl
  | case2 p => simp [joinWith]
  | case3 p q ps ih => simp [joinWith, ih]

theorem joinWith_splitAtChar (sep : Char) (s : List Char) : joinWith sep (splitAtChar sep s) = s := by
  rw [splitAtChar_eq_splitOn, joinWith_eq_intercalate, List.intercalate_splitOn]

theorem splitAtChar_joinWith {sep : Char} {ps : List (List Char)} (hne : ps ≠ []) (hsep : ∀ p ∈ ps, sep ∉ p) :
    splitAtChar sep (joinWith sep ps) = ps := by
  rw [splitAtChar_eq_splitOn, joinWith_eq_intercalate, List.splitOn_intercalate sep hsep hne]

/-- A separator stands after every part but the last. -/
theorem length_joinWith (sep : Char) {ps : List (List Char)} (hne : ps ≠ []) :
    (joinWith sep ps).length + 1 = (ps.map (·.length + 1)).sum := by
  induction ps using joinWith.induct with
  | case1 => exact absurd rfl hne
  | case2 p => simp [joinWith]
  | case3 p q ps ih =>
    have hrest := ih (List.cons_ne_nil q ps)
    rw [joinWith, List.map_cons, List.sum_cons, ← hrest, List.length_append, List.length_cons]
    omega

theorem mem_joinWith_iff {sep c : Char} {ps : List (List Char)} :
    c ∈ joinWith sep ps ↔ (c = sep ∧ 1 < ps.length) ∨ ∃ p ∈ ps, c ∈ p := by
  induction ps using joinWith.induct with
  | case1 => simp [joinWith]
  | case2 p => simp [joinWith]
  | case3 p q ps ih =>
    simp only [joinWith, List.mem_append, List.mem_cons, ih, List.length_cons, exists_eq_or_imp]
    grind

/-! ### A parser and a printer of the parts -/

section
variable {sep : Char} {parse : List Char → Option Byte} {print : Byte → List Char} {bs : List Byte}

theorem map_parse_splitAtChar_joinWith (hne : bs ≠ []) (hsep : ∀ b, sep ∉ print b)
    (hparse : ∀ b, parse (print b) = some b) :
    (splitAtChar sep (joinWith sep (bs.map print))).map parse = bs.map some := by
  have hparts : ∀ p ∈ bs.map print, sep ∉ p := List.forall_mem_map.mpr fun b _ => hsep b
  rw [splitAtChar_joinWith (mt List.map_eq_nil_iff.mp hne) hparts, List.map_map]
  exact List.map_congr_left fun b _ => hparse b

/-- Parts that the printer gives back from their values are the printed values. -/
theorem map_print_of_map_parse {ps : List (List Char)} (h : ps.map parse = bs.map some)
    (hprint : ∀ p ∈ ps, ∀ b, parse p = some b → print b = p) : bs.map print = ps := by
  induction ps generalizing bs with
  | nil => simpa using h.symm
  | cons p ps ih =>
    cases bs with
    | nil => cases h
    | cons b bs =>
      obtain ⟨hp, hps⟩ := List.cons.inj h
      obtain ⟨hhead, htail⟩ := List.forall_mem_cons.mp hprint
      rw [List.map_cons, hhead b hp, ih hps htail]

theorem joinWith_map_of_map_parse {s : List Char} (h : (splitAtChar sep s).map parse = bs.map some)
    (hprint : ∀ p ∈ splitAtChar sep s, ∀ b, parse p = some b → print b = p) : joinWith sep (bs.map print) = s := by
  rw [map_print_of_map_parse h hprint, joinWith_splitAtChar]

end

end Sys2Proof.Machine
end

section
/-! SUPPORT. The digits of the text forms: `digitChar` and the two readers of a digit undo each other, save for the
upper-case hexadecimal letters that `hexDigit` takes as well (R176). -/

namespace Sys2Proof.Machine

theorem decDigit_digitChar : ∀ k, k < 10 → decDigit (digitChar k) = some k := by
  decide

theorem hexDigit_digitChar : ∀ (upperOk : Bool) (k : Nat), k < 16 → hexDigit upperOk (digitChar k) = some k := by
  decide

theorem dot_ne_digitChar : ∀ k, k < 10 → '.' ≠ digitChar k := by
  decide

theorem colon_ne_digitChar : ∀ k, k < 16 → ':' ≠ digitChar k := by
  decide

theorem digitChar_eq_zero_iff : ∀ k, k < 10 → (digitChar k = '0' ↔ k = 0) := by
  decide

theorem digitChar_not_upper : ∀ k, k < 16 → ¬ (65 ≤ (digitChar k).toNat ∧ (digitChar k).toNat ≤ 90) := by
  decide

theorem digitChar_toNat_sub_48 {c : Char} (h : 48 ≤ c.toNat ∧ c.toNat ≤ 57) : digitChar (c.toNat - 48) = c := by
  rw [digitChar, if_pos (by omega), Nat.add_sub_cancel' h.1, Char.ofNat_toNat]

theorem digitChar_toNat_sub_87 {c : Char} (h : 97 ≤ c.toNat ∧ c.toNat ≤ 102) : digitChar (c.toNat - 87) = c := by
  rw [digitChar, if_neg (by omega), Nat.add_sub_cancel' (by omega), Char.ofNat_toNat]

theorem decDigit_eq_some {c : Char} {k : Nat} (h : decDigit c = some k) : k < 10 ∧ digitChar k = c := by
  rw [decDigit] at h
  split at h
  next hc =>
    obtain rfl := Option.some.inj h
    exact ⟨by omega, digitChar_toNat_sub_48 hc⟩
  next => cases h

theorem hexDigit_eq_some {upperOk : Bool} {c : Char} {k : Nat} (h : hexDigit upperOk c = some k)
    (hlower : ¬ (65 ≤ c.toNat ∧ c.toNat ≤ 90)) : k < 16 ∧ digitChar k = c := by
  rw [hexDigit] at h
  split_ifs at h with hdec hlow hup
  · obtain rfl := Option.some.inj h
    exact ⟨by omega, digitChar_toNat_sub_48 hdec⟩
  · obtain rfl := Option.some.inj h
    exact ⟨by omega, digitChar_toNat_sub_87 hlow⟩
  · omega

end Sys2Proof.Machine
end

section
/-! SUPPORT. The parts of the two text forms: an octet in decimal and a byte in two hexadecimal digits, printed and
parsed (44_text_reference.md R171, R172, R175, R176). -/

namespace Sys2Proof.Machine

/-! ### An octet in decimal -/

theorem octetText_one_digit {b : Byte} {i : Nat} (hi : i < 10) (hb : b.toNat = i) : octetText b = [digitChar i] := by
  subst hb
  exact if_pos hi

theorem octetText_two_digits {b : Byte} {i j : Nat} (hi : i < 10) (hj : j < 10) (hne : i ≠ 0)
    (hb : b.toNat = 10 * i + j) : octetText b = [digitChar i, digitChar j] := by
  rw [octetText, if_neg (by omega), if_pos (by omega), show b.toNat / 10 = i by omega, show b.toNat % 10 = j by omega]

theorem octetText_three_digits {b : Byte} {i j k : Nat} (hj : j < 10) (hk : k < 10) (hne : i ≠ 0)
    (hb : b.toNat = 10 * (10 * i + j) + k) : octetText b = [digitChar i, digitChar j, digitChar k] := by
  rw [octetText, if_neg (by omega), if_neg (by omega), show b.toNat / 100 = i by omega,
    show b.toNat / 10 % 10 = j by omega, show b.toNat % 10 = k by omega]

/-- The first digit is 0 only where it is the only one. -/
theorem octetText_cases (b : Byte) :
    (∃ i, i < 10 ∧ b.toNat = i ∧ octetText b = [digitChar i]) ∨
    (∃ i j, i < 10 ∧ j < 10 ∧ i ≠ 0 ∧ b.toNat = 10 * i + j ∧ octetText b = [digitChar i, digitChar j]) ∨
    (∃ i j k, i < 10 ∧ j < 10 ∧ k < 10 ∧ i ≠ 0 ∧ b.toNat = 10 * (10 * i + j) + k ∧
      octetText b = [digitChar i, digitChar j, digitChar k]) := by
  have hlt := b.isLt
  rcases Nat.lt_or_ge b.toNat 10 with h10 | h10
  · exact .inl ⟨b.toNat, h10, rfl, octetText_one_digit h10 rfl⟩
  have hmod : b.toNat % 10 < 10 := Nat.mod_lt _ (by decide)
  rcases Nat.lt_or_ge b.toNat 100 with h100 | h100
  · have hi : b.toNat / 10 < 10 := by omega
    have hne : b.toNat / 10 ≠ 0 := by omega
    have hval : b.toNat = 10 * (b.toNat / 10) + b.toNat % 10 := by omega
    exact .inr (.inl ⟨_, _, hi, hmod, hne, hval, octetText_two_digits hi hmod hne hval⟩)
  · have hi : b.toNat / 100 < 10 := by omega
    have hj : b.toNat / 10 % 10 < 10 := Nat.mod_lt _ (by decide)
    have hne : b.toNat / 100 ≠ 0 := by omega
    have hval : b.toNat = 10 * (10 * (b.toNat / 100) + b.toNat / 10 % 10) + b.toNat % 10 := by omega
    exact .inr (.inr ⟨_, _, _, hi, hj, hmod, hne, hval, octetText_three_digits hj hmod hne hval⟩)

theorem dot_notMem_octetText (b : Byte) : '.' ∉ octetText b := by
  obtain ⟨i, hi, -, hb⟩ | ⟨i, j, hi, hj, -, -, hb⟩ | ⟨i, j, k, hi, hj, hk, -, -, hb⟩ := octetText_cases b
  · simp [hb, dot_ne_digitChar, hi]
  · simp [hb, dot_ne_digitChar, hi, hj]
  · simp [hb, dot_ne_digitChar, hi, hj, hk]

theorem decValue_cons_eq_some_iff {acc n : Nat} {c : Char} {cs : List Char} :
    decValue acc (c :: cs) = some n ↔ ∃ k, k < 10 ∧ digitChar k = c ∧ decValue (10 * acc + k) cs = some n := by
  rw [decValue]
  constructor
  · intro h
    split at h
    next k hk =>
      obtain ⟨hlt, hc⟩ := decDigit_eq_some hk
      exact ⟨k, hlt, hc, h⟩
    next => cases h
  · rintro ⟨k, hlt, rfl, h⟩
    rw [decDigit_digitChar k hlt]
    exact h

/-- What R172 asks of a part of a dotted quad. -/
theorem octetValue_eq_some_iff {zeroOk : Bool} {p : List Char} {b : Byte} :
    octetValue zeroOk p = some b ↔ (p.length ≠ 0 ∧ p.length ≤ 3) ∧
      (zeroOk = true ∨ p.length ≤ 1 ∨ p.head? ≠ some '0') ∧ decValue 0 p = some b.toNat := by
  have hlt := b.isLt
  rw [octetValue]
  split_ifs with hlen hzero
  · simp only [false_iff]
    omega
  · simp only [false_iff]
    grind
  · have hfits (k : Nat) : (if k ≤ 255 then some (BitVec.ofNat 8 k) else none) = some b ↔ k = b.toNat := by
      rw [Option.ite_none_right_eq_some, Option.some.injEq, ← BitVec.toNat_inj, BitVec.toNat_ofNat]
      omega
    rcases decValue 0 p with _ | k
    · simp
    · simp only [hfits, Option.some.injEq]
      grind

theorem octetValue_octetText (zeroOk : Bool) (b : Byte) : octetValue zeroOk (octetText b) = some b := by
  rw [octetValue_eq_some_iff]
  obtain ⟨i, hi, hval, hb⟩ | ⟨i, j, hi, hj, hne, hval, hb⟩ | ⟨i, j, k, hi, hj, hk, hne, hval, hb⟩ := octetText_cases b
  · simp [hb, hval, decValue, decDigit_digitChar, hi]
  · simp [hb, hval, decValue, decDigit_digitChar, digitChar_eq_zero_iff, hi, hj, hne]
  · simp [hb, hval, decValue, decDigit_digitChar, digitChar_eq_zero_iff, hi, hj, hk, hne]

/-- Without leading zeros only the text of its value parses to an octet. -/
theorem octetText_of_octetValue {p : List Char} {b : Byte} (h : octetValue false p = some b) : octetText b = p := by
  obtain ⟨⟨hpos, hle⟩, hzero, hval⟩ := octetValue_eq_some_iff.mp h
  match p with
  | [] => exact absurd rfl hpos
  | [c] =>
    obtain ⟨i, hi, rfl, hnil⟩ := decValue_cons_eq_some_iff.mp hval
    have hb := Option.some.inj hnil
    exact octetText_one_digit hi (by omega)
  | [c, d] =>
    obtain ⟨i, hi, rfl, hsnd⟩ := decValue_cons_eq_some_iff.mp hval
    obtain ⟨j, hj, rfl, hnil⟩ := decValue_cons_eq_some_iff.mp hsnd
    have hb := Option.some.inj hnil
    have hne : i ≠ 0 := by simpa [digitChar_eq_zero_iff i hi] using hzero
    exact octetText_two_digits hi hj hne (by omega)
  | [c, d, e] =>
    obtain ⟨i, hi, rfl, hsnd⟩ := decValue_cons_eq_some_iff.mp hval
    obtain ⟨j, hj, rfl, hthd⟩ := decValue_cons_eq_some_iff.mp hsnd
    obtain ⟨k, hk, rfl, hnil⟩ := decValue_cons_eq_some_iff.mp hthd
    have hb := Option.some.inj hnil
    have hne : i ≠ 0 := by simpa [digitChar_eq_zero_iff i hi] using hzero
    exact octetText_three_digits hj hk hne (by omega)
  | _ :: _ :: _ :: _ :: _ => exact absurd hle (by simp)

/-! ### A byte in hexadecimal -/

theorem byteText_lt (b : Byte) : b.toNat / 16 < 16 ∧ b.toNat % 16 < 16 := by
  omega

theorem colon_notMem_byteText (b : Byte) : ':' ∉ byteText b := by
  obtain ⟨hhi, hlo⟩ := byteText_lt b
  simp [byteText, colon_ne_digitChar, hhi, hlo]

theorem byteText_not_upper (b : Byte) {c : Char} (hc : c ∈ byteText b) : ¬ (65 ≤ c.toNat ∧ c.toNat ≤ 90) := by
  obtain ⟨hhi, hlo⟩ := byteText_lt b
  rw [byteText, List.mem_pair] at hc
  obtain rfl | rfl := hc
  · exact digitChar_not_upper _ hhi
  · exact digitChar_not_upper _ hlo

theorem tokenValue_byteText (b : Byte) : tokenValue (byteText b) = some b := by
  obtain ⟨hhi, hlo⟩ := byteText_lt b
  simp [tokenValue, byteText, hexDigit_digitChar, hhi, hlo, Nat.div_add_mod]

/-- A token that parses is one character or two hexadecimal digits. -/
theorem tokenValue_eq_some {p : List Char} {b : Byte} (h : tokenValue p = some b) :
    p.length = 1 ∨ ∃ c d x y, p = [c, d] ∧ hexDigit Config.hexUpperOk c = some x ∧
      hexDigit Config.hexUpperOk d = some y ∧ b = BitVec.ofNat 8 (16 * x + y) := by
  match p with
  | [] => cases h
  | [c] => exact .inl rfl
  | [c, d] =>
    rw [tokenValue] at h
    split at h
    next x y hx hy => exact .inr ⟨c, d, x, y, rfl, hx, hy, (Option.some.inj h).symm⟩
    next => cases h
  | _ :: _ :: _ :: _ => cases h

theorem length_le_two_of_tokenValue {p : List Char} {b : Byte} (h : tokenValue p = some b) : p.length ≤ 2 := by
  obtain hone | ⟨c, d, x, y, rfl, -⟩ := tokenValue_eq_some h
  · omega
  · exact le_rfl

/-- Without upper-case letters only the text of its value is a token of two digits. -/
theorem byteText_of_tokenValue {p : List Char} {b : Byte} (h : tokenValue p = some b) (hlen : p.length = 2)
    (hlower : ∀ c ∈ p, ¬ (65 ≤ c.toNat ∧ c.toNat ≤ 90)) : byteText b = p := by
  obtain hone | ⟨c, d, x, y, rfl, hx, hy, rfl⟩ := tokenValue_eq_some h
  · omega
  · obtain ⟨hx16, rfl⟩ := hexDigit_eq_some hx (hlower c (by simp))
    obtain ⟨hy16, rfl⟩ := hexDigit_eq_some hy (hlower d (by simp))
    have hval : (BitVec.ofNat 8 (16 * x + y)).toNat = 16 * x + y := by
      rw [BitVec.toNat_ofNat]
      omega
    rw [byteText, hval, show (16 * x + y) / 16 = x by omega, show (16 * x + y) % 16 = y by omega]

end Sys2Proof.Machine
end

section
/-! SUPPORT. The four functions of R170 by the bytes of the address: the text is the printed bytes, and a string is
accepted with a value exactly when its parts parse to the bytes of that value. -/

namespace Sys2Proof.Machine

theorem be_succ_ne_nil {w : Nat} (v : BitVec w) (n : Nat) : be v (n + 1) ≠ [] :=
  List.cons_ne_nil _ _

theorem naToText_eq (v : NetAddr) : naToText v = joinWith '.' ((be v 4).map octetText) := rfl

theorem haToText_eq (h : HwAddr) : haToText h = joinWith ':' ((be h 6).map byteText) := rfl

theorem naFromTextWith_ok_iff {zeroOk : Bool} {s : List Char} {v : NetAddr} :
    naFromTextWith zeroOk s = .ok v ↔ (splitAtChar '.' s).map (octetValue zeroOk) = (be v 4).map some := by
  rw [naFromTextWith]
  constructor
  · intro h
    split at h
    next p q r t hs =>
      split at h
      next a b c d ha hb hc hd =>
        obtain rfl := Except.ok.inj h
        simp only [hs, List.map_cons, List.map_nil, ha, hb, hc, hd]
        exact congrArg (List.map some) (be_frombe 32 [a, b, c, d] (Nat.le_refl 32)).symm
      next => cases h
    next => cases h
  · intro h
    simp only [be, List.map_cons, List.map_nil, List.map_eq_cons_iff, List.map_eq_nil_iff] at h
    obtain ⟨p, _, hs, hp, q, _, rfl, hq, r, _, rfl, hr, t, _, rfl, ht, rfl⟩ := h
    simp only [hs, hp, hq, hr, ht]
    exact congrArg Except.ok (frombe_be v 4 rfl)

theorem haFromText_ok_iff {s : List Char} {h : HwAddr} :
    haFromText s = .ok h ↔ (splitAtChar ':' s).map tokenValue = (be h 6).map some := by
  rw [haFromText]
  constructor
  · intro hs
    split at hs
    next a b c d e f hparts =>
      obtain rfl := Except.ok.inj hs
      rw [hparts]
      exact congrArg (List.map some) (be_frombe 48 [a, b, c, d, e, f] (Nat.le_refl 48)).symm
    next => cases hs
  · intro hs
    rw [hs]
    exact congrArg Except.ok (frombe_be h 6 rfl)

theorem naFromTextWith_naToText (zeroOk : Bool) (v : NetAddr) : naFromTextWith zeroOk (naToText v) = .ok v :=
  naFromTextWith_ok_iff.mpr
    (map_parse_splitAtChar_joinWith (be_succ_ne_nil v 3) dot_notMem_octetText (octetValue_octetText zeroOk))

theorem haFromText_haToText (h : HwAddr) : haFromText (haToText h) = .ok h :=
  haFromText_ok_iff.mpr
    (map_parse_splitAtChar_joinWith (be_succ_ne_nil h 5) colon_notMem_byteText tokenValue_byteText)

/-- Without leading zeros every accepted string is canonical. -/
theorem naToText_of_naFromTextWith {s : List Char} {v : NetAddr} (h : naFromTextWith false s = .ok v) :
    naToText v = s :=
  joinWith_map_of_map_parse (naFromTextWith_ok_iff.mp h) fun _ _ _ => octetText_of_octetValue

theorem length_haToText (h : HwAddr) : (haToText h).length = 17 := rfl

theorem haToText_not_upper {h : HwAddr} {c : Char} (hc : c ∈ haToText h) : ¬ (65 ≤ c.toNat ∧ c.toNat ≤ 90) := by
  rw [haToText_eq, mem_joinWith_iff] at hc
  obtain ⟨rfl, -⟩ | ⟨p, hp, hcp⟩ := hc
  · decide
  · obtain ⟨b, -, rfl⟩ := List.mem_map.mp hp
    exact byteText_not_upper b hcp

/-- Six tokens of at most two digits fill 17 characters only if each has two. -/
theorem length_token_eq_two {s : List Char} {h : HwAddr} (hs : haFromText s = .ok h) (hlen : s.length = 17) :
    ∀ p ∈ splitAtChar ':' s, p.length = 2 := by
  have hparts := haFromText_ok_iff.mp hs
  have hcount : (splitAtChar ':' s).length = 6 := by simpa using congrArg List.length hparts
  have hsum : ((splitAtChar ':' s).map (·.length + 1)).sum = 18 := by
    rw [← length_joinWith ':' (List.ne_nil_of_length_pos (by omega)), joinWith_splitAtChar, hlen]
  have hle : ∀ p ∈ splitAtChar ':' s, p.length + 1 ≤ 3 := by
    intro p hp
    have hmem : tokenValue p ∈ (be h 6).map some := hparts ▸ List.mem_map_of_mem hp
    obtain ⟨b, -, hb⟩ := List.mem_map.mp hmem
    exact Nat.succ_le_succ (length_le_two_of_tokenValue hb.symm)
  intro p hp
  by_contra hne
  have hlt : p.length + 1 < 3 := lt_of_le_of_ne (hle p hp) fun h => hne (Nat.succ.inj h)
  have hshort := List.sum_lt_sum (·.length + 1) (fun _ => 3) hle ⟨p, hp, hlt⟩
  simp [hsum, hcount] at hshort

theorem haToText_of_haFromText {s : List Char} {h : HwAddr} (hs : haFromText s = .ok h) (hlen : s.length = 17)
    (hlower : ∀ c ∈ s, ¬ (65 ≤ c.toNat ∧ c.toNat ≤ 90)) : haToText h = s := by
  have hmem {p : List Char} {c : Char} (hp : p ∈ splitAtChar ':' s) (hc : c ∈ p) : c ∈ s := by
    rw [← joinWith_splitAtChar ':' s]
    exact mem_joinWith_iff.mpr (.inr ⟨p, hp, hc⟩)
  exact joinWith_map_of_map_parse (haFromText_ok_iff.mp hs) fun p hp b hb =>
    byteText_of_tokenValue hb (length_token_eq_two hs hlen p hp) fun c hc => hlower c (hmem hp hc)

end Sys2Proof.Machine
end

section
/-! The statements of 44_text_reference.md. -/

namespace Sys2Proof.Machine

/-- Settles O57: the parts of canonical text parse to the octets they print, and without leading zeros only they do. -/
theorem dottedQuadRoundTrip : Obligations.DottedQuadRoundTrip := by
  refine ⟨naFromTextWith_naToText, naFromTextWith_naToText _, ?_, ?_⟩
  · rintro s v w rfl hw
    obtain rfl := Except.ok.inj ((naFromTextWith_naToText _ v).symm.trans hw)
    rfl
  · intro zeroOk s v hv hnot
    refine ⟨?_, naFromTextWith_naToText zeroOk v, hnot v⟩
    by_contra hzero
    rw [Bool.eq_false_of_not_eq_true hzero] at hv
    exact hnot v (naToText_of_naFromTextWith hv)

/-- Settles O58: 17 characters leave two digits for each of the six tokens. -/
theorem colonHexRoundTrip : Obligations.ColonHexRoundTrip :=
  ⟨fun h => ⟨length_haToText h, fun _ => haToText_not_upper, haFromText_haToText h⟩,
    fun _ _ => haToText_of_haFromText, fun _ h _ => haFromText_haToText h⟩

end Sys2Proof.Machine
end

section
/-! SUPPORT. How every command ends: a well-formed one with a completion code that the command and the state before it
fix, an ill-formed one with the fault of a broken bound (30_encoding.md R58, 60_exceptions.md R180, R192). -/

namespace Sys2Proof.Machine

/-! ### The code of a command -/

/-- The code that the range check of R90 gives an exact result. -/
def rangeCode (r : Int) : Code :=
  if r > 0xFFFFFFFF then .overflow else if r < 0 then .underflow else .ok

/-- The code with which a well-formed command completes in `s`; `exec_of_wf` ties it to `exec`. The commands that can
raise an error are those of R180's table. -/
def completionCode (s : State) : Instr → Code
  | .nadd _ a b => rangeCode (uval (s.getN a) + sval (s.getX b))
  | .nsub _ a b => rangeCode (uval (s.getN a) - sval (s.getX b))
  | .ninc d => rangeCode (uval (s.getN d) + 1)
  | .ndec d => rangeCode (uval (s.getN d) - 1)
  | .nincp _ a => rangeCode (uval (s.getN a) + 1)
  | .ndecp _ a => rangeCode (uval (s.getN a) - 1)
  | .hldl _ _ cnt => if cnt.toNat < 6 then .shortList else .ok
  | _ => .ok

@[simp] theorem rangeCode_eq_overflow_iff (r : Int) : rangeCode r = .overflow ↔ r > 0xFFFFFFFF := by
  unfold rangeCode
  split_ifs <;> simp [*]

@[simp] theorem rangeCode_eq_underflow_iff (r : Int) : rangeCode r = .underflow ↔ r < 0 := by
  unfold rangeCode
  split_ifs <;> simp <;> omega

@[simp] theorem rangeCode_ne_shortList (r : Int) : rangeCode r ≠ .shortList := by
  unfold rangeCode
  split_ifs <;> simp

@[simp] theorem rangeCode_ne_illegalCmd (r : Int) : rangeCode r ≠ .illegalCmd := by
  unfold rangeCode
  split_ifs <;> simp

/-- Range-checked arithmetic always completes, with the code of its exact result. -/
theorem exists_next_arith (r : Int) (wr : NetAddr → State) (s : State) :
    ∃ t, arith r wr s = .next t ∧ t.st = rangeCode r := by
  rcases arith_cases r wr s with ⟨h0, h1, e⟩ | ⟨h, e⟩ | ⟨h, e⟩
  · refine ⟨_, e, ?_⟩
    rw [rangeCode, if_neg (by omega), if_neg (by omega), State.complete_st]
  · exact ⟨_, e, ((rangeCode_eq_overflow_iff r).mpr h).symm⟩
  · exact ⟨_, e, ((rangeCode_eq_underflow_iff r).mpr h).symm⟩

/-! ### Every command completes, unless it breaks the bound of R58 -/

theorem exec_of_wf {i : Instr} (h : i.wf = true) (s : State) :
    ∃ t, exec i s = .next t ∧ t.st = completionCode s i := by
  cases i
  case ldb r off => exact ⟨_, exec_ldb r (of_decide_eq_true h) s, rfl⟩
  case stb r off => exact ⟨_, exec_stb r (of_decide_eq_true h) s, rfl⟩
  case nld r off => exact ⟨_, exec_nld r (of_decide_eq_true h) s, rfl⟩
  case nst r off => exact ⟨_, exec_nst r (of_decide_eq_true h) s, rfl⟩
  case hld r off => exact ⟨_, exec_hld r (of_decide_eq_true h) s, rfl⟩
  case hst r off => exact ⟨_, exec_hst r (of_decide_eq_true h) s, rfl⟩
  case hldl r off cnt =>
    have hb : off.toNat + cnt.toNat ≤ 28 := of_decide_eq_true h
    by_cases hcnt : cnt.toNat < 6
    · exact ⟨_, exec_hldl_of_lt r hb hcnt s, (if_pos hcnt).symm⟩
    · exact ⟨_, exec_hldl_of_le r hb (Nat.le_of_not_lt hcnt) s, (if_neg hcnt).symm⟩
  case nadd | nsub | ninc | ndec | nincp | ndecp => exact exists_next_arith _ _ s
  all_goals exact ⟨_, finish_eq _, rfl⟩

theorem exec_of_not_wf {i : Instr} (h : i.wf = false) (s : State) : exec i s = .fault .outsideWireBuffer := by
  cases i
  case ldb | stb | nld | nst | hld | hst | hldl =>
    have hb := of_decide_eq_false h
    exact inBuffer_of_gt _ (by omega)
  all_goals cases h

/-- A command that answers a next state kept its bound, and completed with its code. -/
theorem exec_next_st {i : Instr} {s t : State} (h : exec i s = .next t) : t.st = completionCode s i := by
  rcases hwf : i.wf with _ | _
  · rw [exec_of_not_wf hwf s] at h
    cases h
  · obtain ⟨u, hu, hst⟩ := exec_of_wf hwf s
    rw [hu] at h
    cases h
    exact hst

/-- The host gets the code that stands in `ST` (R193), and its moves to come are left alone. -/
theorem exec_next_answer {i : Instr} {s t : State} (h : exec i s = .next t) :
    t.answer = .code t.st ∧ t.pending = s.pending := by
  rcases exec_completes i s t h with ⟨c, -, rfl⟩ | ⟨u, hu, rfl⟩
  · exact ⟨rfl, rfl⟩
  · refine ⟨rfl, ?_⟩
    cases hu <;> rfl

/-! ### Which command and which cause gives a code (R180) -/

theorem uval_sub_one_le (v : NetAddr) : uval v - 1 ≤ 0xFFFFFFFF := by
  have := uval_le v
  omega

theorem uval_add_one_nonneg (v : NetAddr) : 0 ≤ uval v + 1 := by
  have := uval_nonneg v
  omega

theorem completionCode_eq_overflow_iff (s : State) (i : Instr) : completionCode s i = .overflow ↔
    (∃ d a b, i = .nadd d a b ∧ uval (s.getN a) + sval (s.getX b) > 0xFFFFFFFF) ∨
    (∃ d a b, i = .nsub d a b ∧ uval (s.getN a) - sval (s.getX b) > 0xFFFFFFFF) ∨
    (∃ d, i = .ninc d ∧ uval (s.getN d) + 1 > 0xFFFFFFFF) ∨
    (∃ d a, i = .nincp d a ∧ uval (s.getN a) + 1 > 0xFFFFFFFF) := by
  cases i
  case ndec d => simpa [completionCode] using uval_sub_one_le (s.getN d)
  case ndecp d a => simpa [completionCode] using uval_sub_one_le (s.getN a)
  all_goals simp [completionCode, ite_eq_iff]

theorem completionCode_eq_underflow_iff (s : State) (i : Instr) : completionCode s i = .underflow ↔
    (∃ d a b, i = .nadd d a b ∧ uval (s.getN a) + sval (s.getX b) < 0) ∨
    (∃ d a b, i = .nsub d a b ∧ uval (s.getN a) - sval (s.getX b) < 0) ∨
    (∃ d, i = .ndec d ∧ uval (s.getN d) - 1 < 0) ∨
    (∃ d a, i = .ndecp d a ∧ uval (s.getN a) - 1 < 0) := by
  cases i
  case ninc d => simpa [completionCode] using uval_add_one_nonneg (s.getN d)
  case nincp d a => simpa [completionCode] using uval_add_one_nonneg (s.getN a)
  all_goals simp [completionCode, ite_eq_iff]

theorem completionCode_eq_shortList_iff (s : State) (i : Instr) : completionCode s i = .shortList ↔
    ∃ r off cnt, i = .hldl r off cnt ∧ cnt.toNat < 6 := by
  cases i <;> simp [completionCode]

theorem completionCode_ne_illegalCmd (s : State) (i : Instr) : completionCode s i ≠ .illegalCmd := by
  cases i <;> simp [completionCode, ite_eq_iff]

end Sys2Proof.Machine
end

section
/-! SUPPORT. Which moves of the host a step performs and which it refuses (60_exceptions.md R194, R195). -/

namespace Sys2Proof.Machine

open Sys2Proof.Safety

theorem step_of_pending {s : State} {m : HostMove} {rest : List HostMove} (h : s.pending = m :: rest) :
    step s = performMove m { s with pending := rest } := by
  rcases step_cases s with ⟨hnil, -⟩ | ⟨m', rest', hcons, hstep⟩
  · cases hnil.symm.trans h
  · cases hcons.symm.trans h
    exact hstep

/-- A word that decodes is a well-formed command, and any other raises `ILLEGAL_CMD`: every word answers a next
state. -/
theorem exists_next_issue (w : CmdWord) (s : State) : ∃ t, issue w s = .next t := by
  rcases issue_cases w s with ⟨i, hdecode, hexec⟩ | ⟨e, -, hill⟩
  · obtain ⟨hwf, -⟩ := decodeAcceptsOnlyEncodings w i hdecode
    obtain ⟨t, ht, -⟩ := exec_of_wf hwf s
    exact ⟨t, hexec.trans ht⟩
  · exact ⟨_, hill⟩

theorem exists_next_hostRead (sel : BitVec 8) (s : State) : ∃ t, hostRead sel s = .next t := by
  rcases htarget : selectorTarget sel with _ | g
  · exact ⟨_, hostRead_of_unassigned htarget s⟩
  · exact ⟨_, hostRead_of_target htarget s⟩

/-! ### A host write needs a value of the width that a read gives -/

theorem isSome_withField_iff (f : Frame) (k : Fin 9) (v : HostValue) :
    (withField f k v).isSome = true ↔ valueWidth v = valueWidth (fieldValue f k) := by
  fin_cases k <;> cases v <;> simp [withField, fieldValue, valueWidth]

theorem isSome_writeTarget_iff (s : State) (g : HostTarget) (v : HostValue) :
    (writeTarget s g v).isSome = true ↔ valueWidth v = valueWidth (readTarget s g) := by
  cases g with
  | f k => simpa [writeTarget, readTarget] using isSome_withField_iff s.f k v
  | _ => cases v <;> simp [writeTarget, readTarget, valueWidth]

@[simp] theorem readTarget_pendingField (s : State) (rest : List HostMove) (g : HostTarget) :
    readTarget { s with pending := rest } g = readTarget s g := by
  cases g <;> rfl

theorem hostWrite_of_unassigned {sel : BitVec 8} (h : selectorTarget sel = none) (v : HostValue) (s : State) :
    hostWrite sel v s = .next s.answerNothing := by
  simp only [hostWrite, h]

theorem exists_next_hostWrite {sel : BitVec 8} {v : HostValue} {s : State} {g : HostTarget}
    (h : selectorTarget sel = some g) (hw : valueWidth v = valueWidth (readTarget s g)) :
    ∃ t, hostWrite sel v s = .next t := by
  obtain ⟨s', hs'⟩ := Option.isSome_iff_exists.mp ((isSome_writeTarget_iff s g v).mpr hw)
  exact ⟨s'.answerNothing, by simp only [hostWrite, h, hs']⟩

theorem hostWrite_of_illTyped {sel : BitVec 8} {v : HostValue} {s : State} {g : HostTarget}
    (h : selectorTarget sel = some g) (hw : valueWidth v ≠ valueWidth (readTarget s g)) :
    hostWrite sel v s = .refused .illTypedHostWrite := by
  have hnone : writeTarget s g v = none :=
    Option.not_isSome_iff_eq_none.mp (mt (isSome_writeTarget_iff s g v).mp hw)
  simp only [hostWrite, h, hnone]

end Sys2Proof.Machine
end

section
/-! The statements of 60_exceptions.md. -/

namespace Sys2Proof.Machine

open Sys2Proof.Safety

/-- Settles O11: of the four kinds of move only a HostWrite can stop, and only for the width of its value. -/
theorem everyStepProceeds : Obligations.EveryStepProceeds := by
  intro s
  rcases step_cases s with ⟨-, hidle⟩ | ⟨m, rest, hpending, hmove⟩
  · exact .inl ⟨s, hidle⟩
  rw [hmove]
  cases m with
  | reset => exact .inl ⟨_, rfl⟩
  | issue w => exact .inl (exists_next_issue w _)
  | hostRead sel => exact .inl (exists_next_hostRead sel _)
  | hostWrite sel v =>
    rcases htarget : selectorTarget sel with _ | g
    · exact .inl ⟨_, hostWrite_of_unassigned htarget v _⟩
    have hread := readTarget_pendingField s rest g
    by_cases hw : valueWidth v = valueWidth (readTarget s g)
    · exact .inl (exists_next_hostWrite htarget (hread ▸ hw))
    · exact .inr ⟨sel, v, rest, g, hpending, htarget, hw, hostWrite_of_illTyped htarget (hread ▸ hw)⟩

/-- Settles O12: the bound of R58 is the one that each access checks. -/
theorem commandsCompleteExactlyWhenWellFormed : Obligations.CommandsCompleteExactlyWhenWellFormed := by
  intro i s
  refine ⟨fun hwf => ?_, fun hwf => exec_of_not_wf hwf s⟩
  obtain ⟨t, ht, -⟩ := exec_of_wf hwf s
  exact ⟨t, ht⟩

/-- Settles O13: a command, with or without an error, ends by writing its code to `ST` and to the answer. -/
theorem responseCarriesTheCode : Obligations.ResponseCarriesTheCode := by
  refine ⟨?_, fun i s t => exec_next_answer, fun w e s he => ⟨_, issue_of_illegal he s, rfl, rfl, rfl⟩⟩
  intro w s t h
  rcases issue_cases w s with ⟨i, -, hexec⟩ | ⟨e, -, hill⟩
  · exact exec_next_answer (hexec.symm.trans h)
  · rw [hill] at h
    cases h
    exact ⟨rfl, rfl⟩

/-- Settles O19: a write succeeds exactly at the width of the value that a read gives. -/
theorem hostWriteRefusedExactlyWhenIllTyped : Obligations.HostWriteRefusedExactlyWhenIllTyped := by
  intro sel v s g htarget
  refine ⟨⟨fun href hw => ?_, hostWrite_of_illTyped htarget⟩, exists_next_hostWrite htarget⟩
  obtain ⟨t, ht⟩ := exists_next_hostWrite htarget hw
  cases href.symm.trans ht

/-- Settles O20: only a command that completes with `OK` has made writes. -/
theorem failingCommandChangesOnlyStatus : Obligations.FailingCommandChangesOnlyStatus := by
  intro w s t h hst
  rcases issue_cases w s with ⟨i, -, hexec⟩ | ⟨e, -, hill⟩
  · rcases exec_completes i s t (hexec.symm.trans h) with ⟨c, -, rfl⟩ | ⟨u, -, rfl⟩
    · exact ⟨onlyST_complete s c, rfl⟩
    · exact absurd rfl hst
  · rw [hill] at h
    cases h
    exact ⟨onlyST_complete s .illegalCmd, rfl⟩

/-- Settles O21: a word that decodes completes with the code of its command, which is never `ILLEGAL_CMD`. -/
theorem errorCodesHaveExactlyTheirCauses : Obligations.ErrorCodesHaveExactlyTheirCauses := by
  intro w s t h
  rcases issue_cases w s with ⟨i, hdecode, hexec⟩ | ⟨e, hdecode, hill⟩
  · rw [exec_next_st (hexec.symm.trans h)]
    simp only [hdecode, Except.ok.injEq, reduceCtorEq, exists_false, iff_false]
    exact ⟨completionCode_eq_overflow_iff s i, completionCode_eq_underflow_iff s i,
      completionCode_eq_shortList_iff s i, completionCode_ne_illegalCmd s i⟩
  · rw [hill] at h
    cases h
    simp [hdecode]

/-- Settles O9: a word placed by `withFetchWord` is the first pending move. -/
theorem stepRunsTheDecodedCommand : Obligations.StepRunsTheDecodedCommand := by
  constructor
  · intro s m rest h
    rw [step_of_pending h]
    refine ⟨rfl, ?_, ?_, ?_, ?_⟩
    · rintro rfl; rfl
    · rintro w rfl; rfl
    · rintro sel rfl; rfl
    · rintro sel v rfl; rfl
  · intro s w i hdecode
    refine ⟨fun rest h => ?_, ?_⟩
    · rw [step_of_pending h]
      exact issue_of_decode hdecode _
    · rw [step_withFetchWord, tableWord_toNat, issue_of_decode hdecode]

/-- Settles O10: the state after an illegal word differs in `ST` only, and the decoder reads no state. -/
theorem illegalWordOnlySetsStatus : Obligations.IllegalWordOnlySetsStatus := by
  intro s w e hillegal
  exact ⟨_, issue_of_illegal hillegal s, rfl, onlyST_complete s .illegalCmd,
    fun w' i hdecode => issue_of_decode hdecode _⟩

/-- Settles O14: a step with a pending move is the only other case. -/
theorem idleBlockKeepsAllState : Obligations.IdleBlockKeepsAllState := by
  intro s hnil
  rcases step_cases s with ⟨-, hidle⟩ | ⟨m, rest, hcons, -⟩
  · exact hidle
  · cases hnil.symm.trans hcons

end Sys2Proof.Machine
end

section
/-! SUPPORT. The move Reset (70_reset_and_hazards.md R200), and the wire buffer after it: every byte is 0 (10_state.md
R33), and 28 such bytes are the encoding of the frame whose fields are all 0, not of the default frame (R201). -/

namespace Sys2Proof.Machine

theorem performMove_reset (s : State) :
    performMove .reset s = .next { State.reset with pending := s.pending } := rfl

/-- The frame whose nine fields are 0. -/
def zeroFrame : Frame :=
  { htype := 0, ptype := 0, hlen := 0, plen := 0, oper := 0, sha := 0, spa := 0, tha := 0, tpa := 0 }

theorem readBytes_nil (o n : Nat) : readBytes [] o n = List.replicate n unlistedByte := by
  induction n generalizing o with
  | zero => rfl
  | succ n ih => rw [readBytes, readByte_nil, ih, List.replicate_succ]

theorem State.memRead_reset (o n : Nat) : State.reset.memRead o n = List.replicate n 0 :=
  readBytes_nil o n

theorem encodeFrame_zeroFrame : encodeFrame zeroFrame = List.replicate 28 0 := by decide

theorem encodeFrame_defaultFrame :
    encodeFrame defaultFrame = [0x00, 0x01, 0x08, 0x00, 0x06, 0x04, 0x00, 0x01] ++ List.replicate 20 0x00 := by decide

/-- `FDEC` undoes the encoding of the all-zero frame, which the buffer is after reset. -/
theorem State.decodeFrame_memRead_reset : decodeFrame (State.reset.memRead 0 28) = zeroFrame := by
  rw [State.memRead_reset, ← encodeFrame_zeroFrame, decodeFrame_encodeFrame]

end Sys2Proof.Machine
end

section
/-! The statements of 70_reset_and_hazards.md. -/

namespace Sys2Proof.Machine

/-- Settles O2: the next state is `State.reset` with the moves still to come put back. -/
theorem resetMoveFromAnyState : Obligations.ResetMoveFromAnyState := by
  intro s
  exact ⟨_, performMove_reset s, rfl, rfl, rfl, rfl, rfl, rfl, rfl, rfl⟩

/-- Settles O3: `FENC` writes the encoding of the default frame, `FDEC` reads back that of the all-zero frame. -/
theorem firstCommandsAfterReset : Obligations.FirstCommandsAfterReset := by
  constructor
  · have hread : State.reset.encoded.memRead 0 28 = encodeFrame defaultFrame := State.reset.memRead_encoded
    exact ⟨_, exec_fenc State.reset, rfl, hread.trans encodeFrame_defaultFrame⟩
  · exact ⟨_, exec_fdec State.reset, rfl, State.decodeFrame_memRead_reset⟩

end Sys2Proof.Machine
end
